-- ==== Sys2Proof/Word.lean ====
section
/-! DEFINITION. The one width of the hardware: every register, memory cell, operand byte, FL, PC and address has 8 bits
(00_scope.md R5, XLEN and PC_WIDTH). Arithmetic on it is modulo 256 (R7). -/

namespace Sys2Proof

/-- An unsigned 8-bit value (00_scope.md R7). -/
abbrev Byte := BitVec 8

end Sys2Proof
end

