-- ==== Sys2Proof/Syntax.lean ====
section
/-! DEFINITION. The names of the registers, the 17 mnemonics of the opcode table, and the instructions with their raw
operand bytes (10_state.md R21, R23; 30_encoding.md R82, R84, R85). -/

namespace Sys2Proof

/-- The eight registers R0 to R7 (10_state.md R21). -/
inductive Reg where
  | r0 | r1 | r2 | r3 | r4 | r5 | r6 | r7
  deriving DecidableEq, Repr

/-- R4, the transfer register (10_state.md R23). -/
abbrev Reg.tr : Reg := .r4
/-- R5, the interrupt mask IM (10_state.md R25). -/
abbrev Reg.im : Reg := .r5
/-- R6, the interrupt status IS (10_state.md R26). -/
abbrev Reg.is : Reg := .r6
/-- R7, the stack pointer SP (10_state.md R27). -/
abbrev Reg.sp : Reg := .r7

/-- A row of the opcode table, named by its mnemonic, in the table's order (30_encoding.md R85). -/
inductive Op where
  | hlt | ldi | prn | pra | mul | add | sub | push | pop | call | ret | st | jmp | cmp | jeq | jne | iret
  deriving DecidableEq, Repr

/-- An instruction with the raw operand bytes the dispatcher hands its handler (30_encoding.md R84): `a` is byte 1, `b`
or `imm` byte 2. A register operand is the whole byte; that it is below 8 is `Instr.wellFormed`, and an instruction that
is not well-formed raises RegRange when it executes (R90). -/
inductive Instr where
  | hlt
  | ldi (a imm : Byte)
  | prn (a : Byte)
  | pra (a : Byte)
  | mul (a b : Byte)
  | add (a b : Byte)
  | sub (a b : Byte)
  | push (a : Byte)
  | pop (a : Byte)
  | call (a : Byte)
  | ret
  | st (a b : Byte)
  | jmp (a : Byte)
  | cmp (a b : Byte)
  | jeq (a : Byte)
  | jne (a : Byte)
  | iret
  deriving DecidableEq, Repr

/-- The opcode-table row of an instruction. -/
def Instr.op : Instr → Op
  | .hlt => .hlt
  | .ldi _ _ => .ldi
  | .prn _ => .prn
  | .pra _ => .pra
  | .mul _ _ => .mul
  | .add _ _ => .add
  | .sub _ _ => .sub
  | .push _ => .push
  | .pop _ => .pop
  | .call _ => .call
  | .ret => .ret
  | .st _ _ => .st
  | .jmp _ => .jmp
  | .cmp _ _ => .cmp
  | .jeq _ => .jeq
  | .jne _ => .jne
  | .iret => .iret

/-- The operand bytes that are register indices, in the order `a` then `b` (30_encoding.md R90: byte 1 of every F1 and F2
instruction, and byte 2 of every F2 instruction except LDI). -/
def Instr.regOperands : Instr → List Byte
  | .hlt | .ret | .iret => []
  | .ldi a _ => [a]
  | .prn a | .pra a | .push a | .pop a | .call a | .jmp a | .jeq a | .jne a => [a]
  | .mul a b | .add a b | .sub a b | .st a b | .cmp a b => [a, b]

end Sys2Proof
end

