-- ==== Sys2Proof/Config.lean ====
section
/-! DEFINITION. The parameters of the hardware (00_scope.md R5) and the one free value, the wall clock (60_exceptions.md
R201). The opcode assignment, also a parameter, stands in Decode.lean. -/

namespace Sys2Proof

/-- MEM_SIZE: 255 cells, so the valid addresses are 0x00 to 0xFE (00_scope.md R5; 90_conflicts.md C1).
The spec's decision, UNVERIFIED (D2), log 2. -/
def Config.memSize : Nat := 255

/-- STACK_BASE: the reset value of R7 (00_scope.md R5). The spec's decision, UNVERIFIED (D5), log 5. -/
def Config.stackBase : Byte := 0xF4

/-- VECTOR_BASE: vector `n` is at `VECTOR_BASE + n` (00_scope.md R5; 60_exceptions.md R206). -/
def Config.vectorBase : Byte := 0xF8

/-- TIMER_PERIOD: one second (00_scope.md R5; 60_exceptions.md R201). Wall-clock time is counted in nanoseconds.
DESIGN CHOICE (the unit), log 9. -/
def Config.timerPeriod : Nat := 1000000000

/-- FREE VALUE. The wall clock read at step 1 of cycle `k`, in nanoseconds since reset (60_exceptions.md R201, `now()`).
The environment gives it and nothing constrains it, not even to be monotonic: every schedule of timer events is the
schedule of some clock. DESIGN CHOICE, safe, log 9. -/
opaque Config.wallClock (k : Nat) : Nat

end Sys2Proof
end

