-- ==== Sys2Proof/WellFormed.lean ====
section
/-! DEFINITION. Which instructions are well-formed: every register operand names a register. -/

namespace Sys2Proof

/-- A register operand byte is legal when it is from 0 to 7 (30_encoding.md R84, R90). -/
def regOperandOk (x : Byte) : Bool := decide (x.toNat < 8)

/-- Every register operand of the instruction is legal. LDI's literal is not checked (41_halt_load_output.md R121). -/
def Instr.wellFormed (i : Instr) : Bool := i.regOperands.all regOperandOk

end Sys2Proof
end

