-- ==== Sys2Proof/Decode.lean ====
section
/-! DEFINITION. The opcode map, the decoder (total on any bytes, rejecting by name), the encoder written from the same map,
and the word form of the decoder that the host calls (30_encoding.md R80 to R90, R94). -/

namespace Sys2Proof

/-- The opcode byte of each mnemonic (30_encoding.md R85). The spec's decision, UNVERIFIED (D1: the values are the LS-8's, from
general knowledge), unsafe if the machine's table differs, log 1. -/
def Op.opcode : Op → Byte
  | .hlt  => 0x01
  | .ldi  => 0x82
  | .prn  => 0x47
  | .pra  => 0x48
  | .mul  => 0xA2
  | .add  => 0xA0
  | .sub  => 0xA1
  | .push => 0x45
  | .pop  => 0x46
  | .call => 0x50
  | .ret  => 0x11
  | .st   => 0x84
  | .jmp  => 0x54
  | .cmp  => 0xA7
  | .jeq  => 0x55
  | .jne  => 0x56
  | .iret => 0x13

/-- The column NOPS of the opcode map (30_encoding.md R85). -/
def Op.nops : Op → Nat
  | .hlt | .ret | .iret => 0
  | .prn | .pra | .push | .pop | .call | .jmp | .jeq | .jne => 1
  | .ldi | .mul | .add | .sub | .st | .cmp => 2

/-- The column PCSET of the opcode map: whether the handler itself writes PC (30_encoding.md R85). -/
def Op.pcset : Op → Bool
  | .call | .ret | .jmp | .jeq | .jne | .iret => true
  | .hlt | .ldi | .prn | .pra | .mul | .add | .sub | .push | .pop | .st | .cmp => false

/-- All rows of the opcode map, in the table's order (30_encoding.md R85). -/
def Op.all : List Op :=
  [.hlt, .ldi, .prn, .pra, .mul, .add, .sub, .push, .pop, .call, .ret, .st, .jmp, .cmp, .jeq, .jne, .iret]

/-- Bits 7:6 of an opcode byte, its operand count (30_encoding.md R81, R83; 40_cycle.md R105). -/
def opcodeNops (op : Byte) : Nat := (op >>> 6).toNat

/-- Bit 4 of an opcode byte, the PC flag (30_encoding.md R81; 40_cycle.md R105). -/
def opcodePcset (op : Byte) : Bool := op.getLsbD 4

/-- The lookup of the whole opcode byte in the table; no other bits are decoded (30_encoding.md R81; 40_cycle.md R106). -/
def lookupOp (op : Byte) : Option Op := Op.all.find? fun m => m.opcode == op

/-- The instruction of a row with its operand bytes; a row ignores the operands it does not have (30_encoding.md R82). -/
def Op.build (m : Op) (a b : Byte) : Instr :=
  match m with
  | .hlt => .hlt
  | .ldi => .ldi a b
  | .prn => .prn a
  | .pra => .pra a
  | .mul => .mul a b
  | .add => .add a b
  | .sub => .sub a b
  | .push => .push a
  | .pop => .pop a
  | .call => .call a
  | .ret => .ret
  | .st => .st a b
  | .jmp => .jmp a
  | .cmp => .cmp a b
  | .jeq => .jeq a
  | .jne => .jne a
  | .iret => .iret

/-- Why bytes are no instruction (30_encoding.md R94). -/
inductive Reject where
  /-- The first byte is none of the 17 opcodes (R87); no operand is looked at. -/
  | unknownOpcode (op : Byte)
  /-- There is no opcode byte, or fewer operand bytes after it than its bits 7:6 call for. -/
  | truncated
  deriving DecidableEq, Repr

/-- Reads one instruction from the front of a byte sequence, lowest address first, and gives the bytes after it. The
opcode is looked up before any operand is read (30_encoding.md R89, R94; 40_cycle.md R106); the operand count is bits
7:6 of the opcode (R83). Whether a register operand is below 8 is no matter of the decoder: the instruction raises
RegRange when it executes (40_cycle.md R108). -/
def decode : List Byte → Except Reject (Instr × List Byte)
  | [] => .error .truncated
  | op :: rest =>
    match lookupOp op with
    | none => .error (.unknownOpcode op)
    | some m =>
      match opcodeNops op, rest with
      | 0, rest => .ok (m.build 0 0, rest)
      | 1, a :: rest => .ok (m.build a 0, rest)
      | 2, a :: b :: rest => .ok (m.build a b, rest)
      | _, _ => .error .truncated

/-- The operand bytes of an instruction, in the order they stand in memory (30_encoding.md R82). -/
def Instr.operands : Instr → List Byte
  | .hlt | .ret | .iret => []
  | .prn a | .pra a | .push a | .pop a | .call a | .jmp a | .jeq a | .jne a => [a]
  | .ldi a imm => [a, imm]
  | .mul a b | .add a b | .sub a b | .st a b | .cmp a b => [a, b]

/-- The bytes of an instruction: the opcode, then its operands at ascending addresses (30_encoding.md R80). -/
def encode (i : Instr) : List Byte := i.op.opcode :: i.operands

/-- The length of an instruction in bytes, 1 + NOPS (30_encoding.md R83). -/
def Instr.length (i : Instr) : Nat := 1 + i.op.nops

/-- Byte `k` of an instruction word whose bits above `nbits` are zero; byte 0, the opcode, is the word's bits 7:0. -/
def tableWordByte (nbits w k : Nat) : Byte := BitVec.ofNat 8 (w % 2 ^ nbits / 2 ^ (8 * k))

/-- The three bytes, first byte first, of an instruction word as spec/opcode_table.json numbers its bits. -/
def tableWordBytes (nbits w : Nat) : List Byte :=
  [tableWordByte nbits w 0, tableWordByte nbits w 1, tableWordByte nbits w 2]

/-- The instruction the decoder reads from an instruction word whose bits are numbered as spec/opcode_table.json numbers
them; the bits above `nbits` are zero. -/
def decodeTableWord (nbits w : Nat) : Option Instr :=
  match decode (tableWordBytes nbits w) with
  | .ok (i, _) => some i
  | .error _ => none

end Sys2Proof
end

