-- ==== Sys2Proof/Machine/State.lean ====
section
/-! DEFINITION. The state of the machine, all of 10_state.md R20 and the output stream of R44, as plain data; its value
after reset (R42); and the reasons a step can stop. -/

namespace Sys2Proof.Machine

/-- The register file: eight 8-bit cells (10_state.md R21). -/
structure Regs where
  r0 : Byte
  r1 : Byte
  r2 : Byte
  r3 : Byte
  r4 : Byte
  r5 : Byte
  r6 : Byte
  r7 : Byte
  deriving DecidableEq, Repr

/-- The cause of a fault with its byte of information (60_exceptions.md R191). -/
inductive Cause where
  /-- Code 1: the fetched byte is none of the 17 opcodes; the information is that byte (R192). -/
  | unknownOpcode (op : Byte)
  /-- Code 2: an access at an address that has no cell; the information is the address (R193). -/
  | memRange (addr : Byte)
  /-- Code 3: a register operand of 8 or more; the information is the operand byte (R194). -/
  | regRange (x : Byte)
  /-- Code 4: reserved and never recorded, since no instruction can request an ALU operation outside the closed set
  (60_exceptions.md R195; 42_alu.md R134). -/
  | aluOp
  deriving DecidableEq, Repr

/-- The fault record: the cause with its information, and PC at the start of the faulting cycle (10_state.md R37). -/
structure FaultRecord where
  cause : Cause
  pc : Byte
  deriving DecidableEq, Repr

/-- The run state RUN (10_state.md R36) with the fault record FAULT (R37), which is meaningful only in FAULTED and so
stands there. DESIGN CHOICE (the shape), safe, log 10. -/
inductive RunState where
  | running
  | halted
  | faulted (record : FaultRecord)
  deriving DecidableEq, Repr

/-- Which output instruction made an event (10_state.md R44). -/
inductive OutKind where
  | prn
  | pra
  deriving DecidableEq, Repr

/-- One event of the output stream (10_state.md R44). -/
structure OutEvent where
  kind : OutKind
  value : Byte
  deriving DecidableEq, Repr

/-- Memory: the cells that differ from an unlisted cell, addresses strictly rising (`Memory.wf`). -/
abbrev Memory := List Host.Cell

/-- The complete state of the machine (10_state.md R20, R44). -/
structure State where
  /-- R0 to R7 (R21). -/
  regs : Regs
  /-- The program counter (R30). -/
  pc : Byte
  /-- The flags register FL: bit 0 equal, bit 1 greater, bit 2 less, bits 7:3 storage (R33). -/
  fl : Byte
  /-- The interrupt-enable flag IE (R35). -/
  ie : Bool
  /-- The run state RUN and the fault record (R36, R37). -/
  run : RunState
  /-- The memory image MEM (R40). -/
  mem : Memory
  /-- The output stream, oldest event first (R44). -/
  out : List OutEvent
  /-- The timer's stored timestamp T_last, in nanoseconds since reset (R38; 60_exceptions.md R201). -/
  timerLast : Nat
  /-- The MODEL'S OWN field: the number of the next wall-clock reading, the argument of the free value
  `Config.wallClock`. DESIGN CHOICE, safe, log 9. -/
  cycle : Nat
  deriving DecidableEq, Repr

/-- The state after reset, before an image is loaded (10_state.md R42; 70_reset_and_hazards.md R230, R231). PC, memory
and RUN are stated by the source; the registers, FL and IE are the spec's decisions D5 and D10 (logs 5, 8); T_last is the
time of reset, from which time is counted (log 9). -/
def State.reset : State where
  regs := { r0 := 0, r1 := 0, r2 := 0, r3 := 0, r4 := 0, r5 := 0, r6 := 0, r7 := Config.stackBase }
  pc := 0
  fl := 0
  ie := true
  run := .running
  mem := []
  out := []
  timerLast := 0
  cycle := 0

/-- Why a step stops the machine. The spec's own faults are states (`RunState.faulted`), entered by a NEXT state. -/
inductive Fault where
  /-- Raised by `step` alone, in a state that is already FAULTED: the run has ended and no further cycle executes, so there
  is no next state (60_exceptions.md R190; 40_cycle.md R100). It hands the host the fault record. Safe: it claims nothing
  of a run that faulted, log 10. -/
  | runFaulted (record : FaultRecord)
  deriving DecidableEq, Repr

/-- Why the model gives an instruction no meaning. -/
inductive Refusal where
  /-- Raised by an arm of `exec` whose instruction is not modelled yet; safe. No arm answers it now: every instruction has
  its meaning. -/
  | notModelled (mnemonic : String)
  deriving DecidableEq, Repr

/-- The outcome of a step of this machine. -/
abbrev Outcome := Host.Outcome State Fault Refusal

end Sys2Proof.Machine
end

