-- ==== Sys2Proof/Machine/Memory.lean ====
section
/-! DEFINITION. Memory as data: reading and writing one cell, the canonical form, and placing a byte sequence. Whether an
address has a cell is decided where the machine accesses memory (Ops.lean, `memRead` and `memWrite`). -/

namespace Sys2Proof.Machine

/-- What a cell that is not listed holds: memory is "created zero-filled" (10_state.md R40, R42; 20_memory.md R62). -/
def Memory.unlisted : Byte := 0

/-- Whether an address has a cell (20_memory.md R50, R51). -/
def addrExists (a : Nat) : Bool := decide (a < Config.memSize)

/-- The byte in the cell at an address. -/
def Memory.read : Memory → Nat → Byte
  | [], _ => Memory.unlisted
  | (k, v) :: rest, a => if k = a then v else Memory.read rest a

/-- The memory with the cell at `a` not listed. -/
def Memory.erase (m : Memory) (a : Nat) : Memory := m.filter fun c => decide (c.1 ≠ a)

/-- The memory with a cell listed before the first of a higher address. -/
def Memory.insert : Memory → Nat → Byte → Memory
  | [], a, v => [(a, v)]
  | (k, w) :: rest, a, v => if a < k then (a, v) :: (k, w) :: rest else (k, w) :: Memory.insert rest a v

/-- The memory with `v` in the cell at `a` and every other cell unchanged, in canonical form. -/
def Memory.write (m : Memory) (a : Nat) (v : Byte) : Memory :=
  if v = Memory.unlisted then Memory.erase m a else Memory.insert (Memory.erase m a) a v

/-- The canonical form: addresses strictly rising, each the address of a cell, and no cell listed that holds what an
unlisted cell holds. -/
def Memory.wf : Memory → Bool
  | [] => true
  | (k, v) :: rest =>
    addrExists k && decide (v ≠ Memory.unlisted) && rest.all (fun c => decide (k < c.1)) && Memory.wf rest

/-- The memory with the bytes placed one after another from address `a` up (20_memory.md R69). A byte that would lie
where there is no cell is not placed. -/
def Memory.place : Nat → List Byte → Memory → Memory
  | _, [], m => m
  | a, b :: bs, m => Memory.place (a + 1) bs (if addrExists a then Memory.write m a b else m)

end Sys2Proof.Machine
end

