-- ==== Sys2Proof/Machine/Ops.lean ====
section
/-! DEFINITION. The named operations of the machine: registers, memory access, faults, the stack engine, the timer check,
the interrupt check, interrupt entry and the return from it, and the fetch of an instruction. -/

namespace Sys2Proof.Machine

/-! ### Registers and the other fields -/

/-- The value of a register. No register is hard-wired (10_state.md R22). -/
def Regs.get (rs : Regs) : Reg → Byte
  | .r0 => rs.r0
  | .r1 => rs.r1
  | .r2 => rs.r2
  | .r3 => rs.r3
  | .r4 => rs.r4
  | .r5 => rs.r5
  | .r6 => rs.r6
  | .r7 => rs.r7

/-- The register file with one register written (10_state.md R22). -/
def Regs.set (rs : Regs) (r : Reg) (v : Byte) : Regs :=
  match r with
  | .r0 => { rs with r0 := v }
  | .r1 => { rs with r1 := v }
  | .r2 => { rs with r2 := v }
  | .r3 => { rs with r3 := v }
  | .r4 => { rs with r4 := v }
  | .r5 => { rs with r5 := v }
  | .r6 => { rs with r6 := v }
  | .r7 => { rs with r7 := v }

/-- `R[r]` (00_scope.md R9). -/
def State.reg (s : State) (r : Reg) : Byte := s.regs.get r

/-- `R[r] <- v` (00_scope.md R9). -/
def State.setReg (s : State) (r : Reg) (v : Byte) : State := { s with regs := s.regs.set r v }

/-- `PC <- v` (00_scope.md R9). -/
def State.setPc (s : State) (v : Byte) : State := { s with pc := v }

/-- `FL <- v` (00_scope.md R9). -/
def State.setFl (s : State) (v : Byte) : State := { s with fl := v }

/-- `IE <- b` (00_scope.md R9). -/
def State.setIe (s : State) (b : Bool) : State := { s with ie := b }

/-- `RUN <- r` (00_scope.md R9). -/
def State.setRun (s : State) (r : RunState) : State := { s with run := r }

/-- The cell at an address holds `v`; no check. -/
def State.setMem (s : State) (a : Nat) (v : Byte) : State := { s with mem := Memory.write s.mem a v }

/-- `Output(kind, v)`: the event is appended to the output stream (10_state.md R44). Output never blocks or fails. -/
def State.emit (s : State) (k : OutKind) (v : Byte) : State := { s with out := s.out ++ [⟨k, v⟩] }

/-- The byte in the cell at an address, for an observer of memory. -/
def State.byteAt (s : State) (a : Nat) : Byte := Memory.read s.mem a

/-- Step 6 of the cycle for an instruction with PCSET clear and `nops` operands: PC moves to the next instruction
(40_cycle.md R110). -/
def State.advance (s : State) (nops : Byte) : State := s.setPc (s.pc + 1 + nops)

/-! ### Faults -/

/-- The numeric code of a fault cause (60_exceptions.md R191). -/
def Cause.code : Cause → Nat
  | .unknownOpcode _ => 1
  | .memRange _ => 2
  | .regRange _ => 3
  | .aluOp => 4

/-- The byte of information a fault record holds (10_state.md R37; 60_exceptions.md R191). -/
def Cause.info : Cause → Option Byte
  | .unknownOpcode op => some op
  | .memRange addr => some addr
  | .regRange x => some x
  | .aluOp => none

/-- `raise`: the run ends in FAULTED and the fault is recorded with the PC of the cycle's start; the writes made so far
stand (60_exceptions.md R190, R197). PC still has that value, since no rule writes PC before a statement that can fault.
DEDUCED (R197), log 11. -/
def State.raise (s : State) (c : Cause) : State := s.setRun (.faulted ⟨c, s.pc⟩)

/-- How a sequence of statements ends: it ran to its end, or a statement of it raised a fault, in the state with the
writes made before it. -/
inductive Res where
  | ok (s : State)
  | raised (c : Cause) (s : State)
  deriving DecidableEq, Repr

/-- The statements `f` after those of `r`: a raise ends the sequence (60_exceptions.md R190). -/
def Res.andThen : Res → (State → Res) → Res
  | .ok s, f => f s
  | .raised c s, _ => .raised c s

/-- The state a sequence leaves, with the run ended if it raised. A fault is a NEXT state, FAULTED: the spec gives its
effect (60_exceptions.md R190). -/
def Res.outcome : Res → Outcome
  | .ok s => .next s
  | .raised c s => .next (s.raise c)

/-! ### Memory access -/

/-- `MemRead(a)` (20_memory.md R52): no effect, and MemRange where there is no cell. -/
def memRead (a : Byte) (s : State) : Except Cause Byte :=
  if addrExists a.toNat then .ok (s.byteAt a.toNat) else .error (.memRange a)

/-- `MemWrite(a, v)` (20_memory.md R53). -/
def memWrite (a v : Byte) (s : State) : Res :=
  if addrExists a.toNat then .ok (s.setMem a.toNat v) else .raised (.memRange a) s

/-! ### The stack engine -/

/-- The first half of a push: the stack pointer is decremented, modulo 256 (43_stack_call.md R140). -/
def decSp (s : State) : State := s.setReg .sp (s.reg .sp - 1)

/-- `Push(v)`: decrement, then write at the new stack pointer (43_stack_call.md R140). -/
def push (v : Byte) (s : State) : Res := memWrite ((decSp s).reg .sp) v (decSp s)

/-- Pushes a register, which is read after the stack pointer was decremented (43_stack_call.md R142). It makes a
difference for R7 alone. The spec's decision, UNVERIFIED (D14), unsafe, log 12. -/
def pushReg (r : Reg) (s : State) : Res := push ((decSp s).reg r) s

/-- Pops into a register: read at the stack pointer, write the register, then increment the stack pointer, modulo 256
(43_stack_call.md R141, R143). For a register other than R7 this is `R[r] <- Pop()`. For R7 the increment comes after the
write. The spec's decision, UNVERIFIED (D14), unsafe, log 12. -/
def popReg (r : Reg) (s : State) : Res :=
  match memRead (s.reg .sp) s with
  | .error c => .raised c s
  | .ok v => .ok ((s.setReg r v).setReg .sp ((s.setReg r v).reg .sp + 1))

/-- Pushes registers one after another. -/
def pushRegs : List Reg → State → Res
  | [], s => .ok s
  | r :: rs, s => (pushReg r s).andThen (pushRegs rs)

/-- Pops into registers one after another. -/
def popRegs : List Reg → State → Res
  | [], s => .ok s
  | r :: rs, s => (popReg r s).andThen (popRegs rs)

/-- Registers 6 down to 0, the order in which interrupt entry pushes the register block and IRET pops it
(60_exceptions.md R204; 46_iret.md R180). The spec's decision, UNVERIFIED (D17, IRQ_PUSH_ASCENDING false), unsafe, log 15. -/
def frameRegs : List Reg := [.r6, .r5, .r4, .r3, .r2, .r1, .r0]

/-! ### The timer check, step 1 of the cycle -/

/-- Whether the timer fires at a clock reading: at least one period has passed since the stored timestamp
(60_exceptions.md R201). -/
def timerDue (now : Nat) (s : State) : Bool := decide (Config.timerPeriod ≤ now - s.timerLast)

/-- Step 1: if the timer fires, bit 0 of R6 is set and the timestamp is the reading (40_cycle.md R102; 60_exceptions.md
R201, R202). It uses up one clock reading. -/
def timerCheck (now : Nat) (s : State) : State :=
  { s.setReg .is (cond (timerDue now s) (s.reg .is ||| 0x01) (s.reg .is)) with
    timerLast := cond (timerDue now s) now s.timerLast
    cycle := s.cycle + 1 }

/-! ### The interrupt check and interrupt entry, step 2 of the cycle -/

/-- The eight interrupt lines in the order they are scanned (60_exceptions.md R200, R203). -/
def irqLines : List (Fin 8) := [0, 1, 2, 3, 4, 5, 6, 7]

/-- Whether a line is pending and unmasked: its bit of IM and of IS are set (60_exceptions.md R200). -/
def linePending (s : State) (n : Fin 8) : Bool := (s.reg .im).getLsbD n && (s.reg .is).getLsbD n

/-- Step 2's choice: with IE set, the lowest line that is pending and unmasked (40_cycle.md R103; 60_exceptions.md
R203). -/
def pendingLine (s : State) : Option (Fin 8) :=
  match s.ie with
  | true => irqLines.find? (linePending s)
  | false => none

/-- The address of an interrupt vector (60_exceptions.md R206). -/
def vectorAddr (n : Fin 8) : Byte := Config.vectorBase + BitVec.ofNat 8 n

/-- `PC <- MemRead(0xF8 + n)`, the last statement of interrupt entry (60_exceptions.md R204, R206). -/
def loadVector (n : Fin 8) (s : State) : Res :=
  match memRead (vectorAddr n) s with
  | .error c => .raised c s
  | .ok v => .ok (s.setPc v)

/-- The first statements of interrupt entry: interrupts are disabled and the line's status bit is cleared
(60_exceptions.md R204). -/
def acknowledge (n : Fin 8) (s : State) : State :=
  (s.setIe false).setReg .is (s.reg .is &&& ~~~(1#8 <<< n.val))

/-- `R[4] <- v ; Push(R[4])` (60_exceptions.md R204; 43_stack_call.md R144). -/
def pushViaTr (v : Byte) (s : State) : Res := pushReg .tr (s.setReg .tr v)

/-- Taking an interrupt: the entry sequence for line `n` (60_exceptions.md R204). -/
def interruptEntry (n : Fin 8) (s : State) : Res :=
  (((pushViaTr (acknowledge n s).pc (acknowledge n s)).andThen fun s1 =>
    pushViaTr s1.fl s1).andThen (pushRegs frameRegs)).andThen (loadVector n)

/-- Returning from an interrupt: registers 6 down to 0 are popped, then FL and PC through R4, then interrupts are enabled
(46_iret.md R180). -/
def interruptReturn (s : State) : Res :=
  (((popRegs frameRegs s).andThen (popReg .tr)).andThen fun s1 =>
    popReg .tr (s1.setFl (s1.reg .tr))).andThen fun s2 =>
      .ok ((s2.setPc (s2.reg .tr)).setIe true)

/-! ### Fetch and decode, steps 3 to 5b of the cycle -/

/-- The bytes in the `k` cells from an address up, ending early where there is no cell. -/
def memWindow (s : State) : Nat → Byte → List Byte
  | 0, _ => []
  | k + 1, a =>
    match memRead a s with
    | .error _ => []
    | .ok b => b :: memWindow s k (a + 1)

/-- The bytes an instruction at PC can consist of: at most three (30_encoding.md R80). -/
def fetchWindow (s : State) : List Byte := memWindow s 3 s.pc

/-- Fetch, lookup and operand fetch (40_cycle.md R104 to R107), or the fault the first of them raises (30_encoding.md
R94). A missing byte is the first one where there is no cell. Reads have no effect (20_memory.md R52), so it does not
matter that bytes beyond the instruction are looked at. DEDUCED, safe, log 19. -/
def fetchInstr (s : State) : Except Cause Instr :=
  match decode (fetchWindow s) with
  | .ok (i, _) => .ok i
  | .error (.unknownOpcode op) => .error (.unknownOpcode op)
  | .error .truncated => .error (.memRange (s.pc + BitVec.ofNat 8 (fetchWindow s).length))

end Sys2Proof.Machine
end

