-- ==== Sys2Proof/Machine/Operands.lean ====
section
/-! DEFINITION. The operand forms: a register operand is a whole byte that must be below 8 (30_encoding.md R84, R90),
checked before the handler changes any state (40_cycle.md R108). LDI's literal is the byte itself. -/

namespace Sys2Proof.Machine

/-- The index of a register (10_state.md R21). -/
def regIndex : Reg → Nat
  | .r0 => 0
  | .r1 => 1
  | .r2 => 2
  | .r3 => 3
  | .r4 => 4
  | .r5 => 5
  | .r6 => 6
  | .r7 => 7

/-- The register a byte names, not masked (30_encoding.md R90). -/
def regOfByte (x : Byte) : Option Reg :=
  match x.toNat with
  | 0 => some .r0
  | 1 => some .r1
  | 2 => some .r2
  | 3 => some .r3
  | 4 => some .r4
  | 5 => some .r5
  | 6 => some .r6
  | 7 => some .r7
  | _ => none

/-- `CheckReg(x)`, then the statements `k` with the register it names (00_scope.md R9; 40_cycle.md R108).
The spec's decision, UNVERIFIED (D4: checked, not masked), log 4. -/
def withReg (x : Byte) (s : State) (k : Reg → Res) : Res :=
  match regOfByte x with
  | none => .raised (.regRange x) s
  | some r => k r

/-- The check of two register operands, the first before the second (40_cycle.md R108). -/
def withRegs (x y : Byte) (s : State) (k : Reg → Reg → Res) : Res :=
  withReg x s fun rx => withReg y s fun ry => k rx ry

end Sys2Proof.Machine
end

