-- ==== Sys2Proof/Machine/Alu.lean ====
section
/-! DEFINITION. The ALU and MUL, ADD, SUB (42_alu.md). -/

namespace Sys2Proof.Machine

/-- The ALU's operations, a closed set (42_alu.md R130, R134). -/
inductive AluOp where
  | add
  | sub
  | mul
  deriving DecidableEq, Repr

/-- The result of an operation, modulo 256 (42_alu.md R130). -/
def aluResult (f : AluOp) (x y : Byte) : Byte :=
  match f with
  | .add => x + y
  | .sub => x - y
  | .mul => x * y

/-- `apply(operation, dest, src)`: both registers are read, the destination is written, nothing else is touched
(42_alu.md R130). -/
def aluApply (f : AluOp) (dest src : Reg) (s : State) : State :=
  s.setReg dest (aluResult f (s.reg dest) (s.reg src))

/-- An ALU instruction with its operands checked (42_alu.md R131 to R133). -/
def aluInstr (f : AluOp) (a b : Byte) (s : State) : Outcome :=
  (withRegs a b s fun ra rb => .ok ((aluApply f ra rb s).advance 2)).outcome

/-- MUL regA, regB (42_alu.md R133). -/
def execMul (a b : Byte) (s : State) : Outcome := aluInstr .mul a b s

/-- ADD regA, regB (42_alu.md R131). -/
def execAdd (a b : Byte) (s : State) : Outcome := aluInstr .add a b s

/-- SUB regA, regB (42_alu.md R132). -/
def execSub (a b : Byte) (s : State) : Outcome := aluInstr .sub a b s

end Sys2Proof.Machine
end

