-- ==== Sys2Proof/Machine/Flags.lean ====
section
/-! DEFINITION. The flags register FL: equal is bit 0, greater bit 1, less bit 2 (10_state.md R33). -/

namespace Sys2Proof.Machine

/-- The whole of FL after comparing `x` with `y`, unsigned: exactly one of 0x01, 0x02, 0x04 (45_compare_jump.md R166).
The spec's decision, UNVERIFIED (D8: replace, not accumulate), unsafe, log 7. -/
def compareFlags (x y : Byte) : Byte :=
  if x = y then 0x01 else if y.toNat < x.toNat then 0x02 else 0x04

/-- The equal flag, the only one a jump tests (45_compare_jump.md R167, R168). -/
def equalFlag (fl : Byte) : Bool := fl.getLsbD 0

end Sys2Proof.Machine
end

