-- ==== Sys2Proof/Machine/CompareJump.lean ====
section
/-! DEFINITION. JMP, CMP, JEQ, JNE (45_compare_jump.md). -/

namespace Sys2Proof.Machine

/-- The conditional jump: the handler owns PC and performs the fall-through itself (45_compare_jump.md R167). -/
def jumpIf (taken : Bool) (target : Byte) (s : State) : State :=
  s.setPc (if taken then target else s.pc + 2)

/-- JMP reg (45_compare_jump.md R165). -/
def execJmp (a : Byte) (s : State) : Outcome :=
  (withReg a s fun ra => .ok (s.setPc (s.reg ra))).outcome

/-- CMP regA, regB (45_compare_jump.md R166). -/
def execCmp (a b : Byte) (s : State) : Outcome :=
  (withRegs a b s fun ra rb => .ok ((s.setFl (compareFlags (s.reg ra) (s.reg rb))).advance 2)).outcome

/-- JEQ reg (45_compare_jump.md R167). The spec's decision, UNVERIFIED (D9), log 7. -/
def execJeq (a : Byte) (s : State) : Outcome :=
  (withReg a s fun ra => .ok (jumpIf (equalFlag s.fl) (s.reg ra) s)).outcome

/-- JNE reg (45_compare_jump.md R168). The spec's decision, UNVERIFIED (D9), log 7. -/
def execJne (a : Byte) (s : State) : Outcome :=
  (withReg a s fun ra => .ok (jumpIf (!equalFlag s.fl) (s.reg ra) s)).outcome

end Sys2Proof.Machine
end

