-- ==== Sys2Proof/Machine/HaltLoadOutput.lean ====
section
/-! DEFINITION. HLT, LDI, PRN, PRA (41_halt_load_output.md). Each meaning is operand validation, the handler, and the
dispatcher's advance of PC. -/

namespace Sys2Proof.Machine

/-- HLT (41_halt_load_output.md R120). PC is advanced like after any instruction with PCSET clear.
The spec's decision, UNVERIFIED (D18), log 16. -/
def execHlt (s : State) : Outcome := .next ((s.setRun .halted).advance 0)

/-- LDI reg, literal (41_halt_load_output.md R121). -/
def execLdi (a imm : Byte) (s : State) : Outcome :=
  (withReg a s fun ra => .ok ((s.setReg ra imm).advance 2)).outcome

/-- PRN reg (41_halt_load_output.md R122). -/
def execPrn (a : Byte) (s : State) : Outcome :=
  (withReg a s fun ra => .ok ((s.emit .prn (s.reg ra)).advance 1)).outcome

/-- PRA reg (41_halt_load_output.md R123). -/
def execPra (a : Byte) (s : State) : Outcome :=
  (withReg a s fun ra => .ok ((s.emit .pra (s.reg ra)).advance 1)).outcome

end Sys2Proof.Machine
end

