-- ==== Sys2Proof/Machine/Iret.lean ====
section
/-! DEFINITION. IRET (46_iret.md). -/

namespace Sys2Proof.Machine

/-- IRET (46_iret.md R180). -/
def execIret (s : State) : Outcome := (interruptReturn s).outcome

end Sys2Proof.Machine
end

