-- ==== Sys2Proof/Machine/StackCall.lean ====
section
/-! DEFINITION. PUSH, POP, CALL, RET (43_stack_call.md). -/

namespace Sys2Proof.Machine

/-- PUSH reg (43_stack_call.md R142). -/
def execPush (a : Byte) (s : State) : Outcome :=
  (withReg a s fun ra => (pushReg ra s).andThen fun s1 => .ok (s1.advance 1)).outcome

/-- POP reg (43_stack_call.md R143). -/
def execPop (a : Byte) (s : State) : Outcome :=
  (withReg a s fun ra => (popReg ra s).andThen fun s1 => .ok (s1.advance 1)).outcome

/-- CALL reg (43_stack_call.md R144): the return address goes through R4 onto the stack, and the target is read last.
The spec's decision, UNVERIFIED (D14), log 12. -/
def execCall (a : Byte) (s : State) : Outcome :=
  (withReg a s fun ra => (pushViaTr (s.pc + 2) s).andThen fun s1 => .ok (s1.setPc (s1.reg ra))).outcome

/-- RET (43_stack_call.md R145). -/
def execRet (s : State) : Outcome :=
  ((popReg .tr s).andThen fun s1 => .ok (s1.setPc (s1.reg .tr))).outcome

end Sys2Proof.Machine
end

