-- ==== Sys2Proof/Machine/Store.lean ====
section
/-! DEFINITION. ST (44_store.md). -/

namespace Sys2Proof.Machine

/-- ST regAddr, regVal (44_store.md R160). -/
def execSt (a b : Byte) (s : State) : Outcome :=
  (withRegs a b s fun ra rb => (memWrite (s.reg ra) (s.reg rb) s).andThen fun s1 => .ok (s1.advance 2)).outcome

end Sys2Proof.Machine
end

