-- ==== Sys2Proof/Machine/Step.lean ====
section
/-! DEFINITION. One step of the machine: a cycle while RUN is RUNNING (40_cycle.md R100, R101, R113), and the placing of an
instruction where the next step fetches it. -/

namespace Sys2Proof.Machine

/-- Step 1 of the cycle that starts in `s`: the timer check, with the cycle's reading of the free wall clock (40_cycle.md
R102). -/
def afterTimer (s : State) : State := timerCheck (Config.wallClock s.cycle) s

/-- Steps 3 to 6 of a cycle: one instruction, or a fault of its fetch (40_cycle.md R104 to R110). -/
def fetchExecute (s : State) : Outcome :=
  match fetchInstr s with
  | .ok i => exec i s
  | .error c => .next (s.raise c)

/-- Steps 2 to 6 of a cycle: the entry of an interrupt, or else an instruction (40_cycle.md R101, R103, R113). -/
def cycleAfterTimer (s : State) : Outcome :=
  match pendingLine s with
  | some n => (interruptEntry n s).outcome
  | none => fetchExecute s

/-- One step. In RUNNING it is one cycle. In HALTED no cycle executes (40_cycle.md R100); that the step answers the same
state is a DESIGN CHOICE, safe, log 18. In FAULTED the run has ended with a fault (60_exceptions.md R190); that the step
hands it to the host is a DESIGN CHOICE, safe, log 10. -/
def step (s : State) : Host.Outcome State Fault Refusal :=
  match s.run with
  | .running => cycleAfterTimer (afterTimer s)
  | .halted => .next s
  | .faulted r => .fault (.runFaulted r)

/-- The state with an instruction word's bytes in the cells from PC up, where the next cycle fetches. With RUN in RUNNING
and no interrupt to enter, as at reset, the next step runs exactly it. It stands for the load of an image (log 13). -/
def State.withFetchWord (s : State) (nbits w : Nat) : State :=
  { s with mem := Memory.place s.pc.toNat (tableWordBytes nbits w) s.mem }

end Sys2Proof.Machine
end

