-- ==== Sys2Proof/Machine/Launch.lean ====
section
/-! DEFINITION. Reset and launch: the host places a program image before the first cycle (20_memory.md R69;
70_reset_and_hazards.md R230). -/

namespace Sys2Proof.Machine

/-- Memory after the load of an image: byte `i` at address `i`, zero above (20_memory.md R69). -/
def imageMemory (image : List Byte) : Memory := Memory.place 0 image []

/-- The state in which the first cycle starts, for an image of at most 255 bytes; a longer image is refused
(20_memory.md R69; 70_reset_and_hazards.md R230). The spec's decision, UNVERIFIED (D15), log 13. -/
def launch (image : List Byte) : Option State :=
  if image.length ≤ Config.memSize then some { State.reset with mem := imageMemory image } else none

end Sys2Proof.Machine
end

