-- ==== Sys2Proof/Safety.lean ====
section
/-! DEFINITION. What the claims speak of: the invariant of every state, and what counts as a safe run. -/

namespace Sys2Proof.Machine

/-- A fault cause that the machine can record: the byte of information is one that raises it (60_exceptions.md R191 to
R195). -/
def Cause.legal : Cause → Prop
  | .unknownOpcode op => lookupOp op = none
  | .memRange addr => addr = 0xFF
  | .regRange x => 8 ≤ x.toNat
  | .aluOp => False

/-- The fault record, if there is one, is one the machine can record, and PC still is at the faulting instruction
(60_exceptions.md R197). -/
def State.recordOk (s : State) : Prop :=
  match s.run with
  | .faulted r => r.cause.legal ∧ r.pc = s.pc
  | _ => True

/-- The invariant of the machine: memory has its canonical form, within the 255 cells, and a fault record is one the
machine can record. -/
def State.Inv (s : State) : Prop := Memory.wf s.mem = true ∧ s.recordOk

/-- The run has ended in a fault (60_exceptions.md R190). A safe run is one that never reaches such a state. -/
def State.isFaulted (s : State) : Bool :=
  match s.run with
  | .faulted _ => true
  | _ => false

/-- The registers an instruction may write (10_state.md R24): its destination register, the stack pointer if it pushes or
pops, and R4 if it calls or returns. -/
def destRegs : Instr → List Reg
  | .ldi a _ | .mul a _ | .add a _ | .sub a _ => (regOfByte a).toList
  | .push _ => [.sp]
  | .pop a => (regOfByte a).toList ++ [.sp]
  | .call _ | .ret => [.tr, .sp]
  | .iret => [.r0, .r1, .r2, .r3, .r4, .r5, .r6, .r7]
  | .hlt | .prn _ | .pra _ | .st _ _ | .jmp _ | .cmp _ _ | .jeq _ | .jne _ => []

/-- The address an instruction stores a byte to, if it gets as far as its store (20_memory.md R54): ST's address register,
or the decremented stack pointer of PUSH and CALL. -/
def storedAt (i : Instr) (s : State) : Option Byte :=
  match i with
  | .st a b => (regOfByte a).bind fun ra => (regOfByte b).map fun _ => s.reg ra
  | .push a | .call a => (regOfByte a).map fun _ => (decSp s).reg .sp
  | .hlt | .ldi _ _ | .prn _ | .pra _ | .mul _ _ | .add _ _ | .sub _ _ | .pop _ | .ret | .jmp _ | .cmp _ _ | .jeq _
  | .jne _ | .iret => none

end Sys2Proof.Machine
end

