-- ==== Sys2Proof/Certificates/Slice0/Obligations.lean ====
section
/-! DEFINITION. The statements for the provers. Each docstring names the rule of spec/ it formalises. A statement that
rests on a decision (D<n>) or a derivation the spec marks as its own says so, and is of basis derived. -/

open Sys2Proof Sys2Proof.Machine

/-! ### Encoding -/

/-- The decoder undoes the encoder whatever bytes follow, and the bytes of a decoded instruction are its encoding, so no
two byte sequences mean the same instruction (30_encoding.md R80, R82, R83). It says that no operand bit is dropped; the
opcode values themselves are the spec's decision D1 (log 1). -/
def Obligations.DecodeEncodeAgree : Prop :=
  (∀ i rest, decode (encode i ++ rest) = .ok (i, rest)) ∧
    ∀ bs i rest, decode bs = .ok (i, rest) → bs = encode i ++ rest

/-- Words written out from the opcode map (30_encoding.md R85, values of decision D1, log 1) with the operand order of
R82 decode to their instructions. -/
def Obligations.WordsOfTheSpecDecode : Prop :=
  decode [0x82, 0x00, 0x08] = .ok (.ldi 0 8, []) ∧ decode [0xA2, 0x00, 0x01] = .ok (.mul 0 1, []) ∧
    decode [0x84, 0x03, 0x02] = .ok (.st 3 2, []) ∧ decode [0x50, 0x01] = .ok (.call 1, []) ∧
    decode [0x56, 0x03] = .ok (.jne 3, []) ∧ decode [0x13] = .ok (.iret, [])

/-- The 17 opcode values are distinct, bits 7:6 of each are its operand count and bit 4 its PC flag, and the operand count
is the number of operand bytes of the encoding (30_encoding.md R83, R86; 90_conflicts.md C3). The values are the spec's
decision D1 (log 1). -/
def Obligations.OpcodeBitsAgreeWithTable : Prop :=
  Op.all.length = 17 ∧ (Op.all.map Op.opcode).Nodup ∧
    (∀ m : Op, m ∈ Op.all ∧ opcodeNops m.opcode = m.nops ∧ opcodePcset m.opcode = m.pcset) ∧
    ∀ i : Instr, (encode i).length = 1 + opcodeNops i.op.opcode ∧ i.length = 1 + opcodeNops i.op.opcode

/-- Every byte off the table is an unknown opcode, there are 239 of them, 0x00 is one, and executing one ends the run
with UnknownOpcode (30_encoding.md, unknown encodings; 60_exceptions.md, faults). The record, and that nothing else is
changed after the timer check, are the spec's decisions D12 and D13 (logs 10, 11). That the fault is a next state, and
that no step from there answers a next state, is the model's choice (DESIGN CHOICE, log 10). -/
def Obligations.UnknownOpcodeEndsTheRun : Prop :=
  (∀ op : Byte, lookupOp op = none ↔ ∀ m : Op, m.opcode ≠ op) ∧
    ((List.range 256).filter fun n => (lookupOp (BitVec.ofNat 8 n)).isNone).length = 239 ∧
    lookupOp 0x00 = none ∧
    ∀ s : State, s.run = .running → pendingLine (afterTimer s) = none → s.pc ≠ 0xFF →
      lookupOp (s.byteAt s.pc.toNat) = none →
      step s = .next { afterTimer s with run := .faulted ⟨.unknownOpcode (s.byteAt s.pc.toNat), s.pc⟩ } ∧
        ∀ t, step s = .next t → ∀ u, step t ≠ .next u

/-- The 64 bytes with bits 7:6 = 11 are unknown opcodes and end the run, and that does not depend on any byte after them,
not even on there being one (30_encoding.md, unknown encodings). The record and what stands after the fault are the
spec's decisions D12 and D13 (logs 10, 11), and that the fault is a next state is the model's choice (DESIGN CHOICE,
log 10). -/
def Obligations.ThreeOperandOpcodesAreUnknown : Prop :=
  ((List.range 256).filter fun n => opcodeNops (BitVec.ofNat 8 n) = 3).length = 64 ∧
    (∀ (op : Byte) (rest : List Byte), opcodeNops op = 3 → decode (op :: rest) = .error (.unknownOpcode op)) ∧
    ∀ s : State, s.pc ≠ 0xFF → opcodeNops (s.byteAt s.pc.toNat) = 3 →
      fetchInstr s = .error (.unknownOpcode (s.byteAt s.pc.toNat)) ∧
        (s.run = .running → pendingLine (afterTimer s) = none →
          step s = .next { afterTimer s with run := .faulted ⟨.unknownOpcode (s.byteAt s.pc.toNat), s.pc⟩ })

/-! ### The step -/

/-- When the bytes at PC decode to an instruction, and RUN is RUNNING and no interrupt is to be entered, the step is that
instruction, run in the state after the timer check (40_cycle.md R101, R113). -/
def Obligations.StepRunsDecodedInstruction : Prop :=
  ∀ (s : State) (i : Instr) (rest : List Byte), s.run = .running → pendingLine (afterTimer s) = none →
    decode (fetchWindow s) = .ok (i, rest) → step s = exec i (afterTimer s)

/-- An instruction is fetched exactly where its encoding stands in memory from PC up, all of it in existing cells
(40_cycle.md R104, R107; 30_encoding.md R80). -/
def Obligations.FetchedInstructionIsTheBytesAtPc : Prop :=
  ∀ (s : State) (i : Instr), fetchInstr s = .ok i ↔
    s.pc.toNat + (encode i).length ≤ 255 ∧
      ∀ (k : Nat) (h : k < (encode i).length), s.byteAt (s.pc.toNat + k) = (encode i)[k]

/-- Decoding at PC is total, and which fault a fetch raises is decided in the order of 30_encoding.md R94 (a derivation of
the spec) and decision D13: no opcode cell, unknown opcode, missing operand cell, else an instruction. -/
def Obligations.FetchFaultOrder : Prop :=
  ∀ s : State,
    (s.pc = 0xFF → fetchInstr s = .error (.memRange 0xFF)) ∧
    (s.pc ≠ 0xFF → lookupOp (s.byteAt s.pc.toNat) = none →
      fetchInstr s = .error (.unknownOpcode (s.byteAt s.pc.toNat))) ∧
    (∀ m, s.pc ≠ 0xFF → lookupOp (s.byteAt s.pc.toNat) = some m → 255 ≤ s.pc.toNat + m.nops →
      fetchInstr s = .error (.memRange 0xFF)) ∧
    ∀ m, s.pc ≠ 0xFF → lookupOp (s.byteAt s.pc.toNat) = some m → s.pc.toNat + m.nops < 255 →
      ∃ i, fetchInstr s = .ok i ∧ i.op = m

/-- A fault of the fetch ends the run: RUN is FAULTED with the cause and PC, and everything else is as after the timer
check (60_exceptions.md R190, R197; decisions D12, D13, logs 10, 11). -/
def Obligations.FetchFaultEndsTheRun : Prop :=
  ∀ (s : State) (c : Cause), s.run = .running → pendingLine (afterTimer s) = none → fetchInstr s = .error c →
    step s = .next { afterTimer s with run := .faulted ⟨c, s.pc⟩ }

/-- Terminal states: no cycle executes in HALTED or FAULTED (40_cycle.md, when a cycle runs). That the step of a
HALTED state answers that same state is the model's choice (DESIGN CHOICE, log 18), and so is that the step of a
FAULTED state hands its record to the host as a fault (DESIGN CHOICE, log 10). -/
def Obligations.TerminalStatesExecuteNothing : Prop :=
  (∀ s : State, s.run = .halted → step s = .next s) ∧
    ∀ (s : State) (r : FaultRecord), s.run = .faulted r → step s = .fault (.runFaulted r)

/-- Every state with RUN = RUNNING has a successor, and no step is ever refused (93_implementation_defined.md section 2,
last paragraph). That a fault is a successor is log 10. -/
def Obligations.RunningStatesHaveASuccessor : Prop :=
  (∀ s : State, s.run = .running → ∃ t, step s = .next t) ∧ ∀ (s : State) (r : Refusal), step s ≠ .refused r

/-! ### The timer -/

/-- 40_cycle.md R102: step 1 runs in every cycle whatever IE and IM hold, and sets bit 0 of R6 exactly when the timer
fires; no other bit of R6, no other register, and nothing but the timer's own state changes. -/
def Obligations.TimerEventSetsStatusBitZero : Prop :=
  (∀ s : State, s.run = .running → step s = cycleAfterTimer (timerCheck (Config.wallClock s.cycle) s)) ∧
    ∀ (now : Nat) (s : State),
      (timerDue now s = true → (timerCheck now s).reg .r6 = s.reg .r6 ||| 0x01) ∧
      (timerDue now s = false → (timerCheck now s).reg .r6 = s.reg .r6) ∧
      (∀ r : Reg, r ≠ .r6 → (timerCheck now s).reg r = s.reg r) ∧
      (timerCheck now s).pc = s.pc ∧ (timerCheck now s).fl = s.fl ∧ (timerCheck now s).ie = s.ie ∧
      (timerCheck now s).run = s.run ∧ (timerCheck now s).mem = s.mem ∧ (timerCheck now s).out = s.out

/-- The timer fires when one second has passed since its timestamp, and then takes the reading as its timestamp, so two
events are at least one second apart (60_exceptions.md, the timer; decision D11). Time in nanoseconds and a free clock are
the model's choice (log 9). -/
def Obligations.TimerPeriodRestartsAtTheEvent : Prop :=
  ∀ (now later : Nat) (s : State),
    (timerDue now s = true ↔ 1000000000 ≤ now - s.timerLast) ∧
    (timerCheck now s).timerLast = (if timerDue now s = true then now else s.timerLast) ∧
    (timerDue now s = true → (timerDue later (timerCheck now s) = true ↔ now + 1000000000 ≤ later))

/-! ### Interrupts -/

/-- 40_cycle.md R103: with IE clear, or nothing both pending and unmasked, the cycle goes on to an instruction; else the
lowest such line is entered and the cycle ends there. The state looked at is the one after the timer check of the same
cycle. -/
def Obligations.InterruptCheckChoosesLowestLine : Prop :=
  ∀ s : State, s.run = .running →
    ((afterTimer s).ie = false ∨ (afterTimer s).reg .r5 &&& (afterTimer s).reg .r6 = 0 →
      step s = fetchExecute (afterTimer s)) ∧
    ∀ n : Fin 8, (afterTimer s).ie = true →
      ((afterTimer s).reg .r5 &&& (afterTimer s).reg .r6).getLsbD n = true →
      (∀ m : Fin 8, m < n → ((afterTimer s).reg .r5 &&& (afterTimer s).reg .r6).getLsbD m = false) →
      step s = (interruptEntry n (afterTimer s)).outcome

/-- The line delivered is the lowest pending and unmasked one with IE set, and there is none exactly when IE is clear or
no line is pending and unmasked (60_exceptions.md R200, R203, selection and priority). -/
def Obligations.PendingLineIsLowestUnmasked : Prop :=
  ∀ s : State,
    (∀ n : Fin 8, pendingLine s = some n ↔
      s.ie = true ∧ (s.reg .r5).getLsbD n = true ∧ (s.reg .r6).getLsbD n = true ∧
        ∀ m : Fin 8, m < n → ((s.reg .r5).getLsbD m && (s.reg .r6).getLsbD m) = false) ∧
    (pendingLine s = none ↔ s.ie = false ∨ s.reg .r5 &&& s.reg .r6 = 0)

/-- Interrupt entry on a line whose vector exists, with room for the frame: the nine bytes of the frame, R4 left holding
FL, the one status bit cleared, IE clear, PC from the vector, and nothing else changed (60_exceptions.md R204 to R206; the
order inside the register block is decision D17, log 15). -/
def Obligations.InterruptEntrySavesFrame : Prop :=
  ∀ (n : Fin 8) (s : State), n.val ≤ 6 → 9 ≤ (s.reg .r7).toNat →
    ∃ t, interruptEntry n s = .ok t ∧ (interruptEntry n s).outcome = .next t ∧
      t.byteAt ((s.reg .r7).toNat - 1) = s.pc ∧ t.byteAt ((s.reg .r7).toNat - 2) = s.fl ∧
      t.byteAt ((s.reg .r7).toNat - 3) = t.reg .r6 ∧ t.byteAt ((s.reg .r7).toNat - 4) = s.reg .r5 ∧
      t.byteAt ((s.reg .r7).toNat - 5) = s.fl ∧ t.byteAt ((s.reg .r7).toNat - 6) = s.reg .r3 ∧
      t.byteAt ((s.reg .r7).toNat - 7) = s.reg .r2 ∧ t.byteAt ((s.reg .r7).toNat - 8) = s.reg .r1 ∧
      t.byteAt ((s.reg .r7).toNat - 9) = s.reg .r0 ∧
      (∀ a : Nat, a < (s.reg .r7).toNat - 9 ∨ (s.reg .r7).toNat ≤ a → t.byteAt a = s.byteAt a) ∧
      t.pc = t.byteAt (0xF8 + n.val) ∧ t.ie = false ∧ t.fl = s.fl ∧
      t.reg .r7 = s.reg .r7 - 9 ∧ t.reg .r4 = s.fl ∧
      (∀ k : Fin 8, (t.reg .r6).getLsbD k = (decide (k ≠ n) && (s.reg .r6).getLsbD k)) ∧
      t.reg .r0 = s.reg .r0 ∧ t.reg .r1 = s.reg .r1 ∧ t.reg .r2 = s.reg .r2 ∧ t.reg .r3 = s.reg .r3 ∧
      t.reg .r5 = s.reg .r5 ∧ t.run = s.run ∧ t.out = s.out ∧ t.timerLast = s.timerLast ∧ t.cycle = s.cycle

/-- Line 7 cannot be served: its vector has no cell, so after the nine pushes, all nine cells of the frame written,
the run ends with MemRange (60_exceptions.md, "Line 7 cannot be served", a derivation of the spec; 90_conflicts.md C1;
decision D2, log 2). The order inside the register block is decision D17 (log 15), and what stands after the fault
decision D13 (log 11). -/
def Obligations.LineSevenFaults : Prop :=
  ∀ s : State, 9 ≤ (s.reg .r7).toNat →
    ∃ t, (interruptEntry 7 s).outcome = .next t ∧ t.run = .faulted ⟨.memRange 0xFF, s.pc⟩ ∧ t.pc = s.pc ∧
      t.ie = false ∧ t.reg .r7 = s.reg .r7 - 9 ∧ (t.reg .r6).getLsbD 7 = false ∧
      t.byteAt ((s.reg .r7).toNat - 1) = s.pc ∧ t.byteAt ((s.reg .r7).toNat - 2) = s.fl ∧
      t.byteAt ((s.reg .r7).toNat - 3) = t.reg .r6 ∧ t.byteAt ((s.reg .r7).toNat - 4) = s.reg .r5 ∧
      t.byteAt ((s.reg .r7).toNat - 5) = s.fl ∧ t.byteAt ((s.reg .r7).toNat - 6) = s.reg .r3 ∧
      t.byteAt ((s.reg .r7).toNat - 7) = s.reg .r2 ∧ t.byteAt ((s.reg .r7).toNat - 8) = s.reg .r1 ∧
      t.byteAt ((s.reg .r7).toNat - 9) = s.reg .r0

/-- Interrupt entry without room for the frame: the push that decrements R7 to 0xFF ends the run with MemRange, and what
entry did before it stands (60_exceptions.md, "Faults during entry" and "The state after a fault", derivations of the
spec). -/
def Obligations.EntryWithoutRoomFaults : Prop :=
  ∀ (n : Fin 8) (s : State), (s.reg .r7).toNat < 9 →
    ∃ t, (interruptEntry n s).outcome = .next t ∧ t.run = .faulted ⟨.memRange 0xFF, s.pc⟩ ∧ t.pc = s.pc ∧
      t.ie = false ∧ t.reg .r7 = 0xFF ∧ (t.reg .r6).getLsbD n = false ∧ t.fl = s.fl ∧ t.out = s.out ∧
      t.reg .r0 = s.reg .r0 ∧ t.reg .r1 = s.reg .r1 ∧ t.reg .r2 = s.reg .r2 ∧ t.reg .r3 = s.reg .r3 ∧
      t.reg .r5 = s.reg .r5 ∧ (1 ≤ (s.reg .r7).toNat → t.byteAt ((s.reg .r7).toNat - 1) = s.pc)

/-- No nesting: with IE clear a cycle is an instruction; entry leaves IE clear however it ends; and the only cycle that
sets IE is one that runs IRET (10_state.md, IE; 60_exceptions.md R208). -/
def Obligations.OnlyIretEnablesInterrupts : Prop :=
  (∀ s : State, s.run = .running → s.ie = false → step s = fetchExecute (afterTimer s)) ∧
    (∀ (n : Fin 8) (s t : State), (interruptEntry n s).outcome = .next t → t.ie = false) ∧
    ∀ s t : State, s.ie = false → step s = .next t → t.ie = true → fetchInstr s = .ok .iret

/-- An entry followed at once by the return permutes the registers (46_iret.md, "What IRET restores after an interrupt
entry", a derivation of the spec; decision D17, log 15). -/
def Obligations.EntryThenReturnPermutesRegisters : Prop :=
  ∀ (n : Fin 8) (s : State), n.val ≤ 6 → 9 ≤ (s.reg .r7).toNat →
    ∃ t u, interruptEntry n s = .ok t ∧ exec .iret t = .next u ∧
      u.reg .r6 = s.reg .r0 ∧ u.reg .r5 = s.reg .r1 ∧ u.reg .r4 = s.pc ∧ u.reg .r3 = s.reg .r3 ∧
      u.reg .r2 = s.fl ∧ u.reg .r1 = s.reg .r5 ∧ u.reg .r0 = t.reg .r6 ∧ u.reg .r7 = s.reg .r7 ∧
      u.fl = s.fl ∧ u.pc = s.pc ∧ u.ie = true ∧ u.run = s.run ∧ ∀ a, u.byteAt a = t.byteAt a

/-! ### Instructions: results, and where they complete -/

/-- HLT halts and advances PC, and changes nothing else (41_halt_load_output.md, HLT). That PC is advanced is decision
D18 (log 16). That the step of the halted state answers that same state is the model's choice (DESIGN CHOICE, log 18).
(Opcode value: D1, log 1.) -/
def Obligations.HltHalts : Prop :=
  encode .hlt = [0x01] ∧
    ∀ s : State, exec .hlt s = .next { s with run := .halted, pc := s.pc + 1 } ∧
      step { s with run := .halted, pc := s.pc + 1 } = .next { s with run := .halted, pc := s.pc + 1 }

/-- 41_halt_load_output.md R121: LDI writes the literal to its register, advances PC by 3 and changes nothing else,
for each of the eight registers and any literal; with a register operand of 8 or more it raises RegRange. (The opcode
value is the spec's decision D1, log 1, and RegRange its decision D4, log 4.) -/
def Obligations.LdiLoadsLiteral : Prop :=
  ∀ (a v : Byte) (s : State),
    encode (.ldi a v) = [0x82, a, v] ∧
    (∀ ra, regOfByte a = some ra →
      exec (.ldi a v) s = .next { s with regs := s.regs.set ra v, pc := s.pc + 3 }) ∧
    (8 ≤ a.toNat → exec (.ldi a v) s = .next { s with run := .faulted ⟨.regRange a, s.pc⟩ })

/-- PRN appends the event (PRN, R[a]), advances PC by 2 and changes nothing else (41_halt_load_output.md, PRN). That
output never blocks or fails is decision D16 (log 14). (Opcode value: D1, log 1. RegRange: D4, log 4.) -/
def Obligations.PrnAppendsNumber : Prop :=
  ∀ (a : Byte) (s : State),
    encode (.prn a) = [0x47, a] ∧
    (∀ ra, regOfByte a = some ra →
      exec (.prn a) s = .next { s with out := s.out ++ [⟨.prn, s.reg ra⟩], pc := s.pc + 2 }) ∧
    (8 ≤ a.toNat → exec (.prn a) s = .next { s with run := .faulted ⟨.regRange a, s.pc⟩ })

/-- 41_halt_load_output.md R123: PRA appends the event (PRA, R[a]), advances PC by 2 and changes nothing else. (The
opcode value is the spec's decision D1, log 1, and RegRange its decision D4, log 4.) -/
def Obligations.PraAppendsCharacter : Prop :=
  ∀ (a : Byte) (s : State),
    encode (.pra a) = [0x48, a] ∧
    (∀ ra, regOfByte a = some ra →
      exec (.pra a) s = .next { s with out := s.out ++ [⟨.pra, s.reg ra⟩], pc := s.pc + 2 }) ∧
    (8 ≤ a.toNat → exec (.pra a) s = .next { s with run := .faulted ⟨.regRange a, s.pc⟩ })

/-- 42_alu.md R131: ADD writes the sum modulo 256 to its first register, advances PC by 3 and changes nothing else, FL
included. (The opcode value is the spec's decision D1, log 1, and RegRange its decision D4, log 4.) -/
def Obligations.AddWrapsModulo256 : Prop :=
  ∀ (a b : Byte) (s : State),
    encode (.add a b) = [0xA0, a, b] ∧
    (∀ ra rb, regOfByte a = some ra → regOfByte b = some rb →
      exec (.add a b) s = .next { s with
        regs := s.regs.set ra (BitVec.ofNat 8 (((s.reg ra).toNat + (s.reg rb).toNat) % 256)), pc := s.pc + 3 }) ∧
    (8 ≤ a.toNat → exec (.add a b) s = .next { s with run := .faulted ⟨.regRange a, s.pc⟩ }) ∧
    (a.toNat < 8 → 8 ≤ b.toNat → exec (.add a b) s = .next { s with run := .faulted ⟨.regRange b, s.pc⟩ })

/-- 42_alu.md R132: SUB writes the difference modulo 256 to its first register, advances PC by 3 and changes nothing
else, FL included. (The opcode value is the spec's decision D1, log 1, and RegRange its decision D4, log 4.) -/
def Obligations.SubWrapsModulo256 : Prop :=
  ∀ (a b : Byte) (s : State),
    encode (.sub a b) = [0xA1, a, b] ∧
    (∀ ra rb, regOfByte a = some ra → regOfByte b = some rb →
      exec (.sub a b) s = .next { s with
        regs := s.regs.set ra (BitVec.ofInt 8 (((s.reg ra).toNat - (s.reg rb).toNat : Int) % 256)), pc := s.pc + 3 }) ∧
    (8 ≤ a.toNat → exec (.sub a b) s = .next { s with run := .faulted ⟨.regRange a, s.pc⟩ }) ∧
    (a.toNat < 8 → 8 ≤ b.toNat → exec (.sub a b) s = .next { s with run := .faulted ⟨.regRange b, s.pc⟩ })

/-- 42_alu.md R133: MUL writes the low 8 bits of the product to its first register, advances PC by 3 and changes
nothing else, FL included. (The opcode value is the spec's decision D1, log 1, and RegRange its decision D4, log 4.)
-/
def Obligations.MulKeepsLowByte : Prop :=
  ∀ (a b : Byte) (s : State),
    encode (.mul a b) = [0xA2, a, b] ∧
    (∀ ra rb, regOfByte a = some ra → regOfByte b = some rb →
      exec (.mul a b) s = .next { s with
        regs := s.regs.set ra (BitVec.ofNat 8 (((s.reg ra).toNat * (s.reg rb).toNat) % 256)), pc := s.pc + 3 }) ∧
    (8 ≤ a.toNat → exec (.mul a b) s = .next { s with run := .faulted ⟨.regRange a, s.pc⟩ }) ∧
    (a.toNat < 8 → 8 ≤ b.toNat → exec (.mul a b) s = .next { s with run := .faulted ⟨.regRange b, s.pc⟩ })

/-- PUSH decrements R7, writes the register to the cell R7 then names and advances PC by 2; for R7 itself the value is
the decremented one; from R7 = 0 it raises MemRange with R7 = 0xFF (43_stack_call.md, PUSH; decisions D7, D14, logs 6,
12). (Opcode value: D1, log 1. RegRange: D4, log 4.) -/
def Obligations.PushStoresBelowStackPointer : Prop :=
  ∀ (a : Byte) (s : State),
    encode (.push a) = [0x45, a] ∧
    (∀ ra, regOfByte a = some ra → s.reg .r7 ≠ 0 →
      exec (.push a) s = .next { s with
        regs := s.regs.set .r7 (s.reg .r7 - 1)
        mem := Memory.write s.mem ((s.reg .r7).toNat - 1) (if ra = .r7 then s.reg .r7 - 1 else s.reg ra)
        pc := s.pc + 2 }) ∧
    (∀ ra, regOfByte a = some ra → s.reg .r7 = 0 →
      exec (.push a) s = .next { s with
        regs := s.regs.set .r7 0xFF, run := .faulted ⟨.memRange 0xFF, s.pc⟩ }) ∧
    (8 ≤ a.toNat → exec (.push a) s = .next { s with run := .faulted ⟨.regRange a, s.pc⟩ })

/-- POP reads the cell R7 names into its register, then increments R7, and advances PC by 2; POP R7 leaves the byte
read plus 1; at R7 = 0xFF it raises MemRange with nothing changed (43_stack_call.md, POP; decision D14, log 12).
(Opcode value: D1, log 1. RegRange: D4, log 4.) -/
def Obligations.PopReadsAtStackPointer : Prop :=
  ∀ (a : Byte) (s : State),
    encode (.pop a) = [0x46, a] ∧
    (∀ ra, regOfByte a = some ra → ra ≠ .r7 → s.reg .r7 ≠ 0xFF →
      exec (.pop a) s = .next { s with
        regs := (s.regs.set ra (s.byteAt (s.reg .r7).toNat)).set .r7 (s.reg .r7 + 1), pc := s.pc + 2 }) ∧
    (regOfByte a = some .r7 → s.reg .r7 ≠ 0xFF →
      exec (.pop a) s = .next { s with
        regs := s.regs.set .r7 (s.byteAt (s.reg .r7).toNat + 1), pc := s.pc + 2 }) ∧
    (∀ ra, regOfByte a = some ra → s.reg .r7 = 0xFF →
      exec (.pop a) s = .next { s with run := .faulted ⟨.memRange 0xFF, s.pc⟩ }) ∧
    (8 ≤ a.toNat → exec (.pop a) s = .next { s with run := .faulted ⟨.regRange a, s.pc⟩ })

/-- CALL puts the return address PC + 2 in R4 and on the stack and jumps to its register, read last: CALL R4 continues
at the return address and CALL R7 at the new stack pointer; from R7 = 0 it raises MemRange with R4 and R7 written and
PC not (43_stack_call.md, CALL; decision D14, log 12). (Opcode value: D1, log 1. RegRange: D4, log 4.) -/
def Obligations.CallPushesReturnAddress : Prop :=
  ∀ (a : Byte) (s : State),
    encode (.call a) = [0x50, a] ∧
    (∀ ra, regOfByte a = some ra → s.reg .r7 ≠ 0 →
      exec (.call a) s = .next { s with
        regs := (s.regs.set .r4 (s.pc + 2)).set .r7 (s.reg .r7 - 1)
        mem := Memory.write s.mem ((s.reg .r7).toNat - 1) (s.pc + 2)
        pc := if ra = .r4 then s.pc + 2 else if ra = .r7 then s.reg .r7 - 1 else s.reg ra }) ∧
    (∀ ra, regOfByte a = some ra → s.reg .r7 = 0 →
      exec (.call a) s = .next { s with
        regs := (s.regs.set .r4 (s.pc + 2)).set .r7 0xFF, run := .faulted ⟨.memRange 0xFF, s.pc⟩ }) ∧
    (8 ≤ a.toNat → exec (.call a) s = .next { s with run := .faulted ⟨.regRange a, s.pc⟩ })

/-- 43_stack_call.md R145: RET pops into R4 and jumps there, whatever pushed the byte; at R7 = 0xFF it raises MemRange
with R4, R7 and PC unchanged. (The opcode value is the spec's decision D1, log 1, and MemRange its decision D3, log
3.) -/
def Obligations.RetJumpsToPoppedByte : Prop :=
  encode .ret = [0x11] ∧
    ∀ s : State,
      (s.reg .r7 ≠ 0xFF →
        exec .ret s = .next { s with
          regs := (s.regs.set .r4 (s.byteAt (s.reg .r7).toNat)).set .r7 (s.reg .r7 + 1)
          pc := s.byteAt (s.reg .r7).toNat }) ∧
      (s.reg .r7 = 0xFF → exec .ret s = .next { s with run := .faulted ⟨.memRange 0xFF, s.pc⟩ })

/-- 44_store.md R160: ST writes R[b] to the cell at address R[a], advances PC by 3 and changes nothing else; at
address 0xFF it raises MemRange and writes nothing; the address register comes first. (The opcode value is the spec's
decision D1, log 1, and RegRange its decision D4, log 4.) -/
def Obligations.StStoresToAddressRegister : Prop :=
  ∀ (a b : Byte) (s : State),
    encode (.st a b) = [0x84, a, b] ∧
    (∀ ra rb, regOfByte a = some ra → regOfByte b = some rb → s.reg ra ≠ 0xFF →
      exec (.st a b) s = .next { s with
        mem := Memory.write s.mem (s.reg ra).toNat (s.reg rb), pc := s.pc + 3 }) ∧
    (∀ ra rb, regOfByte a = some ra → regOfByte b = some rb → s.reg ra = 0xFF →
      exec (.st a b) s = .next { s with run := .faulted ⟨.memRange 0xFF, s.pc⟩ }) ∧
    (8 ≤ a.toNat → exec (.st a b) s = .next { s with run := .faulted ⟨.regRange a, s.pc⟩ }) ∧
    (a.toNat < 8 → 8 ≤ b.toNat → exec (.st a b) s = .next { s with run := .faulted ⟨.regRange b, s.pc⟩ })

/-- 45_compare_jump.md R165: JMP puts its register in PC and changes nothing else; any value is accepted, and a target
of 0xFF faults at the next fetch. (The opcode value is the spec's decision D1, log 1, and RegRange its decision D4,
log 4.) -/
def Obligations.JmpGoesToRegister : Prop :=
  ∀ (a : Byte) (s : State),
    encode (.jmp a) = [0x54, a] ∧
    (∀ ra, regOfByte a = some ra → exec (.jmp a) s = .next { s with pc := s.reg ra } ∧
      (s.reg ra = 0xFF → fetchInstr { s with pc := s.reg ra } = .error (.memRange 0xFF))) ∧
    (8 ≤ a.toNat → exec (.jmp a) s = .next { s with run := .faulted ⟨.regRange a, s.pc⟩ })

/-- CMP replaces all of FL with exactly one of E (0x01), G (0x02), L (0x04) by the unsigned comparison, advances PC by
3 and changes nothing else (45_compare_jump.md, CMP; decision D8, log 7). (Opcode value: D1, log 1. RegRange: D4, log
4.) -/
def Obligations.CmpReplacesFlags : Prop :=
  ∀ (a b : Byte) (s : State),
    encode (.cmp a b) = [0xA7, a, b] ∧
    (∀ ra rb, regOfByte a = some ra → regOfByte b = some rb →
      ((s.reg ra).toNat = (s.reg rb).toNat → exec (.cmp a b) s = .next { s with fl := 0x01, pc := s.pc + 3 }) ∧
      ((s.reg rb).toNat < (s.reg ra).toNat → exec (.cmp a b) s = .next { s with fl := 0x02, pc := s.pc + 3 }) ∧
      ((s.reg ra).toNat < (s.reg rb).toNat → exec (.cmp a b) s = .next { s with fl := 0x04, pc := s.pc + 3 })) ∧
    (8 ≤ a.toNat → exec (.cmp a b) s = .next { s with run := .faulted ⟨.regRange a, s.pc⟩ }) ∧
    (a.toNat < 8 → 8 ≤ b.toNat → exec (.cmp a b) s = .next { s with run := .faulted ⟨.regRange b, s.pc⟩ })

/-- JEQ jumps to its register when FL bit 0 is set and goes to PC + 2 when it is clear, whatever the other bits of FL
are (45_compare_jump.md, JEQ; decision D9, log 7). (Opcode value: D1, log 1. RegRange: D4, log 4.) -/
def Obligations.JeqBranchesOnEqualBit : Prop :=
  ∀ (a : Byte) (s : State),
    encode (.jeq a) = [0x55, a] ∧
    (∀ ra, regOfByte a = some ra →
      (s.fl.getLsbD 0 = true → exec (.jeq a) s = .next { s with pc := s.reg ra }) ∧
      (s.fl.getLsbD 0 = false → exec (.jeq a) s = .next { s with pc := s.pc + 2 })) ∧
    (8 ≤ a.toNat → exec (.jeq a) s = .next { s with run := .faulted ⟨.regRange a, s.pc⟩ })

/-- JNE jumps to its register when FL bit 0 is clear and goes to PC + 2 when it is set, whatever the other bits of FL
are (45_compare_jump.md, JNE; decision D9, log 7). (Opcode value: D1, log 1. RegRange: D4, log 4.) -/
def Obligations.JneBranchesOnClearEqualBit : Prop :=
  ∀ (a : Byte) (s : State),
    encode (.jne a) = [0x56, a] ∧
    (∀ ra, regOfByte a = some ra →
      (s.fl.getLsbD 0 = false → exec (.jne a) s = .next { s with pc := s.reg ra }) ∧
      (s.fl.getLsbD 0 = true → exec (.jne a) s = .next { s with pc := s.pc + 2 })) ∧
    (8 ≤ a.toNat → exec (.jne a) s = .next { s with run := .faulted ⟨.regRange a, s.pc⟩ })

/-- 46_iret.md R180: IRET pops nine bytes, R6 first and PC last, leaves R7 nine higher and R4 equal to PC, and sets
IE; with old R7 at 0xF7 or above it raises MemRange, the pops before the faulting one have taken effect, and IE and PC
are unchanged. (The opcode value is the spec's decision D1, log 1, and MemRange its decision D3, log 3.) -/
def Obligations.IretPopsNineBytes : Prop :=
  encode .iret = [0x13] ∧
    (∀ s : State, (s.reg .r7).toNat < 0xF7 →
      ∃ t, exec .iret s = .next t ∧
        t.reg .r6 = s.byteAt (s.reg .r7).toNat ∧ t.reg .r5 = s.byteAt ((s.reg .r7).toNat + 1) ∧
        t.reg .r3 = s.byteAt ((s.reg .r7).toNat + 3) ∧ t.reg .r2 = s.byteAt ((s.reg .r7).toNat + 4) ∧
        t.reg .r1 = s.byteAt ((s.reg .r7).toNat + 5) ∧ t.reg .r0 = s.byteAt ((s.reg .r7).toNat + 6) ∧
        t.fl = s.byteAt ((s.reg .r7).toNat + 7) ∧ t.pc = s.byteAt ((s.reg .r7).toNat + 8) ∧
        t.reg .r4 = s.byteAt ((s.reg .r7).toNat + 8) ∧ t.reg .r7 = s.reg .r7 + 9 ∧ t.ie = true ∧
        t.run = s.run ∧ t.mem = s.mem ∧ t.out = s.out ∧ t.timerLast = s.timerLast ∧ t.cycle = s.cycle) ∧
    ∀ s : State, 0xF7 ≤ (s.reg .r7).toNat →
      ∃ t, exec .iret s = .next t ∧ t.run = .faulted ⟨.memRange 0xFF, s.pc⟩ ∧ t.pc = s.pc ∧ t.ie = s.ie ∧
        t.reg .r7 = 0xFF ∧ t.mem = s.mem ∧ t.out = s.out ∧ t.timerLast = s.timerLast ∧ t.cycle = s.cycle ∧
        t.reg .r6 = (if (s.reg .r7).toNat < 255 then s.byteAt (s.reg .r7).toNat else s.reg .r6) ∧
        t.reg .r5 = (if (s.reg .r7).toNat + 1 < 255 then s.byteAt ((s.reg .r7).toNat + 1) else s.reg .r5) ∧
        t.reg .r3 = (if (s.reg .r7).toNat + 3 < 255 then s.byteAt ((s.reg .r7).toNat + 3) else s.reg .r3) ∧
        t.reg .r2 = (if (s.reg .r7).toNat + 4 < 255 then s.byteAt ((s.reg .r7).toNat + 4) else s.reg .r2) ∧
        t.reg .r1 = (if (s.reg .r7).toNat + 5 < 255 then s.byteAt ((s.reg .r7).toNat + 5) else s.reg .r1) ∧
        t.reg .r0 = (if (s.reg .r7).toNat + 6 < 255 then s.byteAt ((s.reg .r7).toNat + 6) else s.reg .r0) ∧
        t.fl = (if (s.reg .r7).toNat + 7 < 255 then s.byteAt ((s.reg .r7).toNat + 7) else s.fl) ∧
        t.reg .r4 = (if (s.reg .r7).toNat + 7 < 255 then s.byteAt ((s.reg .r7).toNat + 7)
          else if (s.reg .r7).toNat + 2 < 255 then s.byteAt ((s.reg .r7).toNat + 2) else s.reg .r4)

/-- Register operands are checked, the first before the second, before any state is changed, and not masked; the literal of
LDI is not checked (30_encoding.md R84, R90; 60_exceptions.md R194; decision D4, log 4). -/
def Obligations.RegisterOperandsAreChecked : Prop :=
  (∀ x : Byte, (regOfByte x = none ↔ 8 ≤ x.toNat) ∧ ∀ r, regOfByte x = some r ↔ x.toNat = regIndex r) ∧
    (∀ i : Instr, i.wellFormed = true ↔ ∀ x ∈ i.regOperands, x.toNat < 8) ∧
    ∀ (i : Instr) (x : Byte) (s : State), i.regOperands.find? (fun y => decide (8 ≤ y.toNat)) = some x →
      exec i s = .next { s with run := .faulted ⟨.regRange x, s.pc⟩ }

/-- A well-formed instruction faults only with MemRange, and only if it is one of PUSH, POP, CALL, RET, ST, IRET
(60_exceptions.md R193, R196). -/
def Obligations.WellFormedFaultsOnlyOnMemory : Prop :=
  ∀ (i : Instr) (s t : State) (r : FaultRecord), i.wellFormed = true → s.isFaulted = false → exec i s = .next t →
    t.run = .faulted r → r = ⟨.memRange 0xFF, s.pc⟩ ∧ i.op ∈ [.push, .pop, .call, .ret, .st, .iret]

/-! ### Frames -/

/-- Frame of the instructions that neither push, pop nor store: HLT, LDI, PRN, PRA, MUL, ADD, SUB, JMP, CMP, JEQ, JNE. All
registers but the destination of LDI and the ALU instructions, all of FL but for CMP, IE, the output but for PRN and PRA,
and every byte of memory are unchanged; RUN changes to HALTED by HLT alone, and otherwise only by a fault (10_state.md
R24, R34, R35, R44; 20_memory.md R54). -/
def Obligations.RegisterInstructionsFrame : Prop :=
  ∀ (i : Instr) (s t : State), i.op ∈ [.hlt, .ldi, .prn, .pra, .mul, .add, .sub, .jmp, .cmp, .jeq, .jne] →
    exec i s = .next t →
    (∀ r : Reg, r ∉ destRegs i → t.reg r = s.reg r) ∧
    (i.op ≠ .cmp → t.fl = s.fl) ∧ t.ie = s.ie ∧ (i.op ≠ .prn → i.op ≠ .pra → t.out = s.out) ∧
    t.timerLast = s.timerLast ∧ t.cycle = s.cycle ∧
    (i.op ≠ .hlt → t.run = s.run ∨ ∃ c, t.run = .faulted ⟨c, s.pc⟩ ∧ t.pc = s.pc) ∧
    ∀ a : Nat, t.byteAt a = s.byteAt a

/-- Frame of the storing instructions PUSH, CALL and ST: every byte of memory but the one at the address they store to,
every register but R7 (PUSH, CALL) and R4 (CALL), FL, IE and the output are unchanged (10_state.md R24, R34, R35;
20_memory.md R53, R54). -/
def Obligations.StoringInstructionsFrame : Prop :=
  ∀ (i : Instr) (s t : State), i.op ∈ [.push, .call, .st] → exec i s = .next t →
    (∀ r : Reg, r ∉ destRegs i → t.reg r = s.reg r) ∧
    t.fl = s.fl ∧ t.ie = s.ie ∧ t.out = s.out ∧ t.timerLast = s.timerLast ∧ t.cycle = s.cycle ∧
    (t.run = s.run ∨ ∃ c, t.run = .faulted ⟨c, s.pc⟩ ∧ t.pc = s.pc) ∧
    (∀ x : Byte, storedAt i s = some x → ∀ a : Nat, a ≠ x.toNat → t.byteAt a = s.byteAt a) ∧
    (storedAt i s = none → ∀ a : Nat, t.byteAt a = s.byteAt a)

/-- Frame of the popping instructions POP, RET and IRET: every byte of memory, the output, every register but those
popped into and R7 (POP: its register and R7; RET: R4 and R7; IRET: R0 to R7), and for POP and RET also FL and IE are
unchanged (10_state.md R24, R34, R35; 20_memory.md R54). -/
def Obligations.PoppingInstructionsFrame : Prop :=
  ∀ (i : Instr) (s t : State), i.op ∈ [.pop, .ret, .iret] → exec i s = .next t →
    (∀ r : Reg, r ∉ destRegs i → t.reg r = s.reg r) ∧
    (i.op ≠ .iret → t.fl = s.fl ∧ t.ie = s.ie) ∧ t.out = s.out ∧ t.timerLast = s.timerLast ∧ t.cycle = s.cycle ∧
    (t.run = s.run ∨ ∃ c, t.run = .faulted ⟨c, s.pc⟩ ∧ t.pc = s.pc) ∧
    ∀ a : Nat, t.byteAt a = s.byteAt a

/-! ### Memory and the stack -/

/-- 20_memory.md R52: MemRead of an address from 255 up raises MemRange, and of any other returns the cell; it changes
no state. (That the access is checked is the spec's decision D3, log 3.) -/
def Obligations.MemReadOfMissingCellFaults : Prop :=
  ∀ (a : Byte) (s : State),
    (255 ≤ a.toNat → memRead a s = .error (.memRange a)) ∧
    (a.toNat < 255 → memRead a s = .ok (s.byteAt a.toNat))

/-- 20_memory.md R53: MemWrite at an address from 255 up raises MemRange, and at any other writes one cell, changes no
other cell and no register. A later MemRead of the cell returns the byte written. (That the access is checked is the
spec's decision D3, log 3.) -/
def Obligations.MemWriteChangesOneCell : Prop :=
  ∀ (a v : Byte) (s : State),
    (255 ≤ a.toNat → memWrite a v s = .raised (.memRange a) s) ∧
    (a.toNat < 255 → ∃ t, memWrite a v s = .ok t ∧ memRead a t = .ok v ∧
      (∀ k : Nat, k ≠ a.toNat → t.byteAt k = s.byteAt k) ∧ (∀ r : Reg, t.reg r = s.reg r) ∧
      t.pc = s.pc ∧ t.fl = s.fl ∧ t.ie = s.ie ∧ t.run = s.run ∧ t.out = s.out ∧ t.timerLast = s.timerLast ∧
      t.cycle = s.cycle)

/-- 43_stack_call.md R141: a pop reads the cell R7 names and then increments R7, and nothing else; at R7 = 0xFF it raises
MemRange with nothing changed; at R7 = 0xFE it leaves R7 = 0xFF. Stated for `R[r] <- Pop()`, r not R7. -/
def Obligations.PopReadsThenIncrements : Prop :=
  ∀ (r : Reg) (s : State), r ≠ .r7 →
    (s.reg .r7 = 0xFF → popReg r s = .raised (.memRange 0xFF) s) ∧
    (s.reg .r7 ≠ 0xFF → ∃ t, popReg r s = .ok t ∧ t.reg r = s.byteAt (s.reg .r7).toNat ∧
      t.reg .r7 = s.reg .r7 + 1 ∧ (s.reg .r7 = 0xFE → t.reg .r7 = 0xFF) ∧
      (∀ q : Reg, q ≠ r → q ≠ .r7 → t.reg q = s.reg q) ∧ t.mem = s.mem ∧ t.pc = s.pc ∧ t.fl = s.fl ∧
      t.ie = s.ie ∧ t.run = s.run ∧ t.out = s.out ∧ t.timerLast = s.timerLast ∧ t.cycle = s.cycle)

/-- PUSH then POP of the same register, R7 included, restores every register (43_stack_call.md, properties of the stack;
95_test_vectors.md S3; for R7 by decision D14, log 12). -/
def Obligations.PushThenPopRestores : Prop :=
  ∀ (a : Byte) (ra : Reg) (s : State), regOfByte a = some ra → s.reg .r7 ≠ 0 →
    ∃ t u, exec (.push a) s = .next t ∧ exec (.pop a) t = .next u ∧
      (∀ q : Reg, u.reg q = s.reg q) ∧ u.mem = t.mem ∧ u.pc = s.pc + 4

/-- CALL then, with the stack pointer and its cell as CALL left them, RET continues after the CALL with R7 restored
(43_stack_call.md, RET; 95_test_vectors.md S4). -/
def Obligations.CallThenRetReturns : Prop :=
  ∀ (a : Byte) (ra : Reg) (s : State), regOfByte a = some ra → s.reg .r7 ≠ 0 →
    ∃ t, exec (.call a) s = .next t ∧
      ∀ u : State, u.reg .r7 = t.reg .r7 → u.byteAt (t.reg .r7).toNat = t.byteAt (t.reg .r7).toNat →
        ∃ w, exec .ret u = .next w ∧ w.pc = s.pc + 2 ∧ w.reg .r7 = s.reg .r7

/-- LDI then PRN of the same register outputs the literal loaded (41_halt_load_output.md, LDI; 95_test_vectors.md S2). -/
def Obligations.LdiThenPrnPrintsLiteral : Prop :=
  ∀ (a v : Byte) (ra : Reg) (s : State), regOfByte a = some ra →
    ∃ t u, exec (.ldi a v) s = .next t ∧ exec (.prn a) t = .next u ∧ u.out = s.out ++ [⟨.prn, v⟩]

/-- A byte stored by ST is the opcode byte of the next fetch at its address (20_memory.md, self-modifying code, a
derivation of the spec). -/
def Obligations.StoreIsSeenByNextFetch : Prop :=
  ∀ (a b : Byte) (ra rb : Reg) (s : State), regOfByte a = some ra → regOfByte b = some rb → s.reg ra ≠ 0xFF →
    ∃ t, exec (.st a b) s = .next t ∧
      ∀ u : State, u.mem = t.mem → u.pc = s.reg ra → (fetchWindow u).head? = some (s.reg rb)

/-! ### Whole-machine rules -/

/-- Every step keeps the invariant. That memory is a list of rising addresses with no zero byte listed is the model's
choice (DESIGN CHOICE, log 23); that every listed address is below 255 is the address space of 20_memory.md section 1
(decision D2, log 2). That a fault record has a cause that can be raised follows the causes of 60_exceptions.md Part 1
(decision D12; the form is the model's choice, DESIGN CHOICE, log 10), and that the recorded PC is PC is the model's
reading (DEDUCED, log 11). -/
def Obligations.StepKeepsTheInvariant : Prop :=
  ∀ s t : State, s.Inv → step s = .next t → t.Inv

/-- The state after reset, and after the launch of any image that fits, has the invariant (10_state.md, reset values;
20_memory.md, the host and the program image). The canonical form of memory that the invariant speaks of is the
model's choice (DESIGN CHOICE, log 23), and so is launch as a function beside step (DESIGN CHOICE, log 13; the
placement is decision D15). -/
def Obligations.LaunchedStatesHaveTheInvariant : Prop :=
  State.reset.Inv ∧ ∀ (image : List Byte) (s : State), launch image = some s → s.Inv

/-- The values after reset (10_state.md, reset values): PC 0, RUN RUNNING and memory zero are the source's; R0 to R6 zero,
R7 0xF4, FL zero and IE 1 are the spec's decisions D5 and D10 (logs 5, 8). -/
def Obligations.ResetValues : Prop :=
  State.reset.pc = 0x00 ∧ State.reset.run = .running ∧ (∀ a, State.reset.byteAt a = 0x00) ∧
    (∀ r : Reg, r ≠ .r7 → State.reset.reg r = 0x00) ∧ State.reset.reg .r7 = 0xF4 ∧ State.reset.fl = 0x00 ∧
    State.reset.ie = true ∧ State.reset.out = []

/-- The launch puts byte i of the image at address i and leaves the cells above zero and everything else as reset left it;
an image of more than 255 bytes is refused (20_memory.md, the program image; decision D15, log 13). -/
def Obligations.LaunchPlacesTheImage : Prop :=
  ∀ image : List Byte,
    (image.length ≤ 255 → ∃ s, launch image = some s ∧ { s with mem := [] } = State.reset ∧
      (∀ (k : Nat) (h : k < image.length), s.byteAt k = image[k]) ∧
      ∀ k : Nat, image.length ≤ k → s.byteAt k = 0x00) ∧
    (255 < image.length → launch image = none)

/-- HALTED is reached only by HLT, in a cycle that enters no interrupt (10_state.md, RUN; 60_exceptions.md R209). -/
def Obligations.HaltedOnlyByHlt : Prop :=
  ∀ s t : State, s.run = .running → step s = .next t → t.run = .halted →
    fetchInstr s = .ok .hlt ∧ pendingLine (afterTimer s) = none

/-- The output stream only grows, by one event, and only by PRN and PRA (10_state.md, the output stream; decision D16, log
14). -/
def Obligations.OutputGrowsOnlyByPrnAndPra : Prop :=
  ∀ s t : State, step s = .next t → t.out = s.out ∨
    ∃ a ra, regOfByte a = some ra ∧
      (fetchInstr s = .ok (.prn a) ∧ t.out = s.out ++ [⟨.prn, (afterTimer s).reg ra⟩] ∨
        fetchInstr s = .ok (.pra a) ∧ t.out = s.out ++ [⟨.pra, (afterTimer s).reg ra⟩])

/-- FL is changed by CMP and IRET alone: not by the timer, not by interrupt entry, not by another instruction (10_state.md,
writers of FL; 70_reset_and_hazards.md, "FL survives everything", a derivation of the spec). -/
def Obligations.FlagsChangeOnlyByCmpAndIret : Prop :=
  ∀ s t : State, step s = .next t → t.fl ≠ s.fl →
    (∃ a b, fetchInstr s = .ok (.cmp a b)) ∨ fetchInstr s = .ok .iret

/-- A faulting cycle leaves PC and records it with a cause the machine can raise, and a fault of interrupt entry is
MemRange (60_exceptions.md, the state after a fault; decision D13, log 11). -/
def Obligations.FaultLeavesPcAndRecordsIt : Prop :=
  ∀ (s t : State) (r : FaultRecord), step s = .next t → t.run = .faulted r →
    t.pc = s.pc ∧ r.pc = s.pc ∧ r.cause.legal ∧
      (pendingLine (afterTimer s) ≠ none → r.cause = .memRange 0xFF)

/-- The fault cause AluOp is reserved: no execution records it (60_exceptions.md Part 1, the causes). Its code 4 and
that it has no byte of information are the spec's decision D12 (log 21). -/
def Obligations.AluOpIsNeverRecorded : Prop :=
  Cause.aluOp.code = 4 ∧ Cause.aluOp.info = none ∧
    ∀ (s t : State) (r : FaultRecord), step s = .next t → t.run = .faulted r → r.cause ≠ .aluOp

/-- An instruction with PCSET clear that completes leaves PC at the next instruction, and the sum does not wrap
(40_cycle.md, advance and "No PC overflow", a derivation of the spec). -/
def Obligations.AdvanceNeverWraps : Prop :=
  ∀ (s t : State) (i : Instr), fetchInstr s = .ok i → i.op.pcset = false → exec i s = .next t →
    t.isFaulted = false → t.pc.toNat = s.pc.toNat + i.length
end

