-- ==== Sys2Proof/Laws/Decode.lean ====
section
/-! SUPPORT. The opcode table and the decoder. -/

namespace Sys2Proof

/-- Looking up a row's own opcode finds the row. -/
@[simp] theorem lookupOp_opcode (m : Op) : lookupOp m.opcode = some m := by
  cases m <;> rfl

/-- A lookup finds exactly the row whose opcode the byte is. -/
theorem lookupOp_some_iff (op : Byte) (m : Op) : lookupOp op = some m ↔ op = m.opcode := by
  constructor
  · intro h
    have := List.find?_some h
    simpa using (by simpa using this : m.opcode = op).symm
  · rintro rfl
    exact lookupOp_opcode m

theorem Op.mem_all (m : Op) : m ∈ Op.all := by
  cases m <;> decide

theorem lookupOp_none_iff (op : Byte) : lookupOp op = none ↔ ∀ m : Op, m.opcode ≠ op := by
  constructor
  · rintro h m rfl
    simp at h
  · intro h
    cases hm : lookupOp op with
    | none => rfl
    | some m => exact absurd ((lookupOp_some_iff op m).1 hm).symm (h m)

/-- Bits 7:6 of a row's opcode are its operand count (30_encoding.md R83). -/
@[simp] theorem opcodeNops_opcode (m : Op) : opcodeNops m.opcode = m.nops := by
  cases m <;> rfl

/-- Bit 4 of a row's opcode is its PC flag (30_encoding.md R83). -/
@[simp] theorem opcodePcset_opcode (m : Op) : opcodePcset m.opcode = m.pcset := by
  cases m <;> rfl

/-- A first byte off the table is rejected by name, whatever follows it (30_encoding.md R94). -/
theorem decode_unknown {op : Byte} (h : lookupOp op = none) (rest : List Byte) :
    decode (op :: rest) = .error (.unknownOpcode op) := by
  simp [decode, h]

/-- A row without operands takes the opcode byte alone. -/
theorem decode_nops0 {m : Op} (h : m.nops = 0) (rest : List Byte) :
    decode (m.opcode :: rest) = .ok (m.build 0 0, rest) := by
  cases m <;> first | rfl | (exact absurd h (by decide))

/-- A row with one operand takes the byte after the opcode. -/
theorem decode_nops1 {m : Op} (h : m.nops = 1) (a : Byte) (rest : List Byte) :
    decode (m.opcode :: a :: rest) = .ok (m.build a 0, rest) := by
  cases m <;> first | rfl | (exact absurd h (by decide))

/-- A row with two operands takes the two bytes after the opcode. -/
theorem decode_nops2 {m : Op} (h : m.nops = 2) (a b : Byte) (rest : List Byte) :
    decode (m.opcode :: a :: b :: rest) = .ok (m.build a b, rest) := by
  cases m <;> first | rfl | (exact absurd h (by decide))

/-- With fewer bytes than the row's operands there is no instruction. -/
theorem decode_truncated (m : Op) (rest : List Byte) (h : rest.length < m.nops) :
    decode (m.opcode :: rest) = .error .truncated := by
  match rest with
  | [] => cases m <;> first | rfl | (exact absurd h (by decide))
  | [a] => cases m <;> first | rfl | (exact absurd h (by decide : ¬ 1 < _))
  | a :: b :: rest => cases m <;> simp [Op.nops] at h

theorem Instr.operands_length (i : Instr) : i.operands.length = i.op.nops := by
  cases i <;> rfl

theorem encode_length (i : Instr) : (encode i).length = i.length := by
  simp [encode, Instr.length, Instr.operands_length, Nat.add_comm]

end Sys2Proof
end

