-- ==== Sys2Proof/Laws/Memory.lean ====
section
/-! SUPPORT. Memory: a read after a write, and the canonical form is kept. -/

namespace Sys2Proof.Machine

theorem Memory.erase_cons (k : Nat) (w : Byte) (rest : Memory) (a : Nat) :
    Memory.erase ((k, w) :: rest) a =
      if k = a then Memory.erase rest a else (k, w) :: Memory.erase rest a := by
  by_cases h : k = a <;> simp [Memory.erase, h]

theorem Memory.read_erase : ∀ (m : Memory) (a k : Nat),
    Memory.read (Memory.erase m a) k = if k = a then Memory.unlisted else Memory.read m k
  | [], _, _ => by simp [Memory.erase, Memory.read]
  | (j, w) :: rest, a, k => by
    rw [Memory.erase_cons]
    have ih := Memory.read_erase rest a k
    by_cases hja : j = a
    · subst hja
      by_cases hk : k = j
      · subst hk; simpa using ih
      · simp [ih, hk, Memory.read, show ¬ j = k from fun h => hk h.symm]
    · by_cases hjk : j = k
      · subst hjk; simp [Memory.read, hja]
      · simp [Memory.read, hja, hjk, ih]

theorem Memory.read_insert : ∀ (m : Memory) (a : Nat) (v : Byte) (k : Nat), (∀ c ∈ m, c.1 ≠ a) →
    Memory.read (Memory.insert m a v) k = if k = a then v else Memory.read m k
  | [], a, v, k, _ => by simp [Memory.insert, Memory.read, eq_comm]
  | (j, w) :: rest, a, v, k, h => by
    have hja : j ≠ a := h (j, w) (by simp)
    have ih := Memory.read_insert rest a v k fun c hc => h c (by simp [hc])
    unfold Memory.insert
    by_cases hak : a = k
    · subst hak
      split <;> simp [Memory.read, hja, ih]
    · have hka : ¬ k = a := fun e => hak e.symm
      split <;> simp [Memory.read, hak, hka, ih]

/-- A read after a write gives the value written, and every other cell is unchanged (20_memory.md R52, R53). -/
theorem Memory.read_write (m : Memory) (a : Nat) (v : Byte) (k : Nat) :
    Memory.read (Memory.write m a v) k = if k = a then v else Memory.read m k := by
  unfold Memory.write
  split
  · next hv => rw [Memory.read_erase, hv]
  · rw [Memory.read_insert _ _ _ _ fun c hc => by simpa using (List.mem_filter.1 hc).2, Memory.read_erase]
    split <;> simp [*]

theorem Memory.wf_cons (k : Nat) (v : Byte) (rest : Memory) :
    Memory.wf ((k, v) :: rest) = true ↔
      addrExists k = true ∧ v ≠ Memory.unlisted ∧ (∀ c ∈ rest, k < c.1) ∧ Memory.wf rest = true := by
  simp [Memory.wf, and_assoc]

theorem Memory.wf_erase : ∀ (m : Memory) (a : Nat), Memory.wf m = true → Memory.wf (Memory.erase m a) = true
  | [], _, _ => rfl
  | (j, w) :: rest, a, h => by
    obtain ⟨hj, hw, hlt, hrest⟩ := (Memory.wf_cons j w rest).1 h
    rw [Memory.erase_cons]
    split
    · exact Memory.wf_erase rest a hrest
    · exact (Memory.wf_cons j w _).2
        ⟨hj, hw, fun c hc => hlt c (List.mem_filter.1 hc).1, Memory.wf_erase rest a hrest⟩

theorem Memory.mem_insert : ∀ (m : Memory) (a : Nat) (v : Byte) (c : Host.Cell),
    c ∈ Memory.insert m a v → c = (a, v) ∨ c ∈ m
  | [], a, v, c, h => by simpa [Memory.insert] using h
  | (j, w) :: rest, a, v, c, h => by
    unfold Memory.insert at h
    split at h
    · simpa using h
    · rcases List.mem_cons.1 h with rfl | h
      · simp
      · rcases Memory.mem_insert rest a v c h with h | h <;> simp [h]

theorem Memory.wf_insert : ∀ (m : Memory) (a : Nat) (v : Byte), Memory.wf m = true → (∀ c ∈ m, c.1 ≠ a) →
    addrExists a = true → v ≠ Memory.unlisted → Memory.wf (Memory.insert m a v) = true
  | [], a, v, _, _, ha, hv => by simp [Memory.insert, ha, hv, Memory.wf]
  | (j, w) :: rest, a, v, h, hne, ha, hv => by
    obtain ⟨hj, hw, hlt, hrest⟩ := (Memory.wf_cons j w rest).1 h
    have hja : j ≠ a := hne (j, w) (by simp)
    unfold Memory.insert
    split
    · next haj =>
      refine (Memory.wf_cons a v _).2 ⟨ha, hv, fun c hc => ?_, h⟩
      rcases List.mem_cons.1 hc with rfl | hc
      · exact haj
      · exact haj.trans (hlt c hc)
    · next haj =>
      refine (Memory.wf_cons j w _).2 ⟨hj, hw, fun c hc => ?_,
        Memory.wf_insert rest a v hrest (fun c hc => hne c (by simp [hc])) ha hv⟩
      rcases Memory.mem_insert rest a v c hc with rfl | hc
      · exact lt_of_le_of_ne (not_lt.1 haj) hja
      · exact hlt c hc

/-- A write to a cell that exists keeps the canonical form. -/
theorem Memory.write_wf (m : Memory) (a : Nat) (v : Byte) (h : Memory.wf m = true) (ha : addrExists a = true) :
    Memory.wf (Memory.write m a v) = true := by
  unfold Memory.write
  split
  · exact Memory.wf_erase m a h
  · next hv =>
    exact Memory.wf_insert _ a v (Memory.wf_erase m a h)
      (fun c hc => by simpa using (List.mem_filter.1 hc).2) ha hv

/-- Placing bytes keeps the canonical form. -/
theorem Memory.place_wf : ∀ (bs : List Byte) (a : Nat) (m : Memory), Memory.wf m = true →
    Memory.wf (Memory.place a bs m) = true
  | [], _, _, h => h
  | b :: bs, a, m, h => by
    unfold Memory.place
    split
    · next ha => exact Memory.place_wf bs (a + 1) _ (Memory.write_wf m a b h ha)
    · exact Memory.place_wf bs (a + 1) m h

/-- A cell outside the bytes placed from address `a` up is unchanged. -/
theorem Memory.read_place_other : ∀ (bs : List Byte) (a : Nat) (m : Memory) (k : Nat),
    (k < a ∨ a + bs.length ≤ k) → Memory.read (Memory.place a bs m) k = Memory.read m k
  | [], _, _, _, _ => rfl
  | b :: bs, a, m, k, h => by
    simp only [List.length_cons] at h
    unfold Memory.place
    rw [Memory.read_place_other bs (a + 1) _ k (by omega)]
    split
    · rw [Memory.read_write, if_neg (by omega)]
    · rfl

/-- Byte `i` of the bytes placed from address `a` up is in cell `a + i`, if that cell exists. -/
theorem Memory.read_place : ∀ (bs : List Byte) (a : Nat) (m : Memory) (i : Nat) (h : i < bs.length),
    addrExists (a + i) = true → Memory.read (Memory.place a bs m) (a + i) = bs[i]
  | b :: bs, a, m, 0, _, hx => by
    unfold Memory.place
    rw [Memory.read_place_other bs (a + 1) _ (a + 0) (by omega), if_pos (by simpa using hx), Memory.read_write]
    simp
  | b :: bs, a, m, i + 1, h, hx => by
    unfold Memory.place
    have e : a + (i + 1) = (a + 1) + i := by omega
    rw [e] at hx ⊢
    rw [Memory.read_place bs (a + 1) _ i (by simpa using h) hx]
    simp

end Sys2Proof.Machine
end

