-- ==== Sys2Proof/Laws/Operands.lean ====
section
/-! SUPPORT. Operand bytes and the registers they name. -/

namespace Sys2Proof.Machine

/-- The byte that is a register's index. -/
def byteOfReg (r : Reg) : Byte := BitVec.ofNat 8 (regIndex r)

@[simp] theorem regOfByte_byteOfReg (r : Reg) : regOfByte (byteOfReg r) = some r := by
  cases r <;> rfl

theorem regOfByte_none_iff (x : Byte) : regOfByte x = none ↔ 8 ≤ x.toNat := by
  unfold regOfByte
  split <;> simp_all
  omega

theorem regOfByte_some_iff (x : Byte) (r : Reg) : regOfByte x = some r ↔ x.toNat = regIndex r := by
  unfold regOfByte
  cases r <;> split <;> simp_all [regIndex]

theorem regOfByte_eq_none {x : Byte} (h : regOperandOk x = false) : regOfByte x = none :=
  (regOfByte_none_iff x).2 (by simpa [regOperandOk] using h)

/-- A legal operand byte names a register. -/
theorem regOfByte_isSome {x : Byte} (h : regOperandOk x = true) : ∃ r, regOfByte x = some r := by
  cases hr : regOfByte x with
  | some r => exact ⟨r, rfl⟩
  | none =>
    have h1 := (regOfByte_none_iff x).1 hr
    have h2 : x.toNat < 8 := by simpa [regOperandOk] using h
    omega

theorem withReg_some {x : Byte} {r : Reg} (h : regOfByte x = some r) (s : State) (k : Reg → Res) :
    withReg x s k = k r := by simp [withReg, h]

theorem withReg_none {x : Byte} (h : regOfByte x = none) (s : State) (k : Reg → Res) :
    withReg x s k = .raised (.regRange x) s := by simp [withReg, h]

theorem withRegs_some {x y : Byte} {rx ry : Reg} (hx : regOfByte x = some rx) (hy : regOfByte y = some ry)
    (s : State) (k : Reg → Reg → Res) : withRegs x y s k = k rx ry := by
  simp [withRegs, withReg_some hx, withReg_some hy]

theorem withRegs_none_left {x : Byte} (hx : regOfByte x = none) (y : Byte) (s : State) (k : Reg → Reg → Res) :
    withRegs x y s k = .raised (.regRange x) s := by simp [withRegs, withReg_none hx]

theorem withRegs_none_right {x y : Byte} {rx : Reg} (hx : regOfByte x = some rx) (hy : regOfByte y = none)
    (s : State) (k : Reg → Reg → Res) : withRegs x y s k = .raised (.regRange y) s := by
  simp [withRegs, withReg_some hx, withReg_none hy]

/-- Everything an operand check can do: it raises RegRange in the state it was given, or goes on with the register. -/
theorem withReg_cases (x : Byte) (s : State) (k : Reg → Res) :
    (8 ≤ x.toNat ∧ withReg x s k = .raised (.regRange x) s) ∨
      ∃ r, regOfByte x = some r ∧ withReg x s k = k r := by
  cases h : regOfByte x with
  | none => exact .inl ⟨(regOfByte_none_iff x).1 h, withReg_none h s k⟩
  | some r => exact .inr ⟨r, rfl, withReg_some h s k⟩

/-- Everything the check of two operands can do. -/
theorem withRegs_cases (x y : Byte) (s : State) (k : Reg → Reg → Res) :
    (∃ z, 8 ≤ z.toNat ∧ withRegs x y s k = .raised (.regRange z) s) ∨
      ∃ rx ry, regOfByte x = some rx ∧ regOfByte y = some ry ∧ withRegs x y s k = k rx ry := by
  unfold withRegs
  rcases withReg_cases x s fun rx => withReg y s fun ry => k rx ry with ⟨h, e⟩ | ⟨rx, hx, e⟩
  · exact .inl ⟨x, h, e⟩
  · rcases withReg_cases y s fun ry => k rx ry with ⟨h, e'⟩ | ⟨ry, hy, e'⟩
    · exact .inl ⟨y, h, e.trans e'⟩
    · exact .inr ⟨rx, ry, hx, hy, e.trans e'⟩

end Sys2Proof.Machine
end

