-- ==== Sys2Proof/Laws/State.lean ====
section
/-! SUPPORT. One lemma per field per update of the state, so that no later proof unfolds a record update. -/

namespace Sys2Proof.Machine

variable (s : State)

/-! ### setReg -/

@[simp] theorem State.setReg_regs (r : Reg) (v : Byte) : (s.setReg r v).regs = s.regs.set r v := rfl
@[simp] theorem State.setReg_pc (r : Reg) (v : Byte) : (s.setReg r v).pc = s.pc := rfl
@[simp] theorem State.setReg_fl (r : Reg) (v : Byte) : (s.setReg r v).fl = s.fl := rfl
@[simp] theorem State.setReg_ie (r : Reg) (v : Byte) : (s.setReg r v).ie = s.ie := rfl
@[simp] theorem State.setReg_run (r : Reg) (v : Byte) : (s.setReg r v).run = s.run := rfl
@[simp] theorem State.setReg_mem (r : Reg) (v : Byte) : (s.setReg r v).mem = s.mem := rfl
@[simp] theorem State.setReg_out (r : Reg) (v : Byte) : (s.setReg r v).out = s.out := rfl
@[simp] theorem State.setReg_timerLast (r : Reg) (v : Byte) : (s.setReg r v).timerLast = s.timerLast := rfl
@[simp] theorem State.setReg_cycle (r : Reg) (v : Byte) : (s.setReg r v).cycle = s.cycle := rfl
@[simp] theorem State.setReg_byteAt (r : Reg) (v : Byte) (k : Nat) : (s.setReg r v).byteAt k = s.byteAt k := rfl

/-! ### setPc -/

@[simp] theorem State.setPc_regs (v : Byte) : (s.setPc v).regs = s.regs := rfl
@[simp] theorem State.setPc_pc (v : Byte) : (s.setPc v).pc = v := rfl
@[simp] theorem State.setPc_fl (v : Byte) : (s.setPc v).fl = s.fl := rfl
@[simp] theorem State.setPc_ie (v : Byte) : (s.setPc v).ie = s.ie := rfl
@[simp] theorem State.setPc_run (v : Byte) : (s.setPc v).run = s.run := rfl
@[simp] theorem State.setPc_mem (v : Byte) : (s.setPc v).mem = s.mem := rfl
@[simp] theorem State.setPc_out (v : Byte) : (s.setPc v).out = s.out := rfl
@[simp] theorem State.setPc_timerLast (v : Byte) : (s.setPc v).timerLast = s.timerLast := rfl
@[simp] theorem State.setPc_cycle (v : Byte) : (s.setPc v).cycle = s.cycle := rfl
@[simp] theorem State.setPc_reg (v : Byte) (q : Reg) : (s.setPc v).reg q = s.reg q := rfl
@[simp] theorem State.setPc_byteAt (v : Byte) (k : Nat) : (s.setPc v).byteAt k = s.byteAt k := rfl

/-! ### setFl -/

@[simp] theorem State.setFl_regs (v : Byte) : (s.setFl v).regs = s.regs := rfl
@[simp] theorem State.setFl_pc (v : Byte) : (s.setFl v).pc = s.pc := rfl
@[simp] theorem State.setFl_fl (v : Byte) : (s.setFl v).fl = v := rfl
@[simp] theorem State.setFl_ie (v : Byte) : (s.setFl v).ie = s.ie := rfl
@[simp] theorem State.setFl_run (v : Byte) : (s.setFl v).run = s.run := rfl
@[simp] theorem State.setFl_mem (v : Byte) : (s.setFl v).mem = s.mem := rfl
@[simp] theorem State.setFl_out (v : Byte) : (s.setFl v).out = s.out := rfl
@[simp] theorem State.setFl_timerLast (v : Byte) : (s.setFl v).timerLast = s.timerLast := rfl
@[simp] theorem State.setFl_cycle (v : Byte) : (s.setFl v).cycle = s.cycle := rfl
@[simp] theorem State.setFl_reg (v : Byte) (q : Reg) : (s.setFl v).reg q = s.reg q := rfl
@[simp] theorem State.setFl_byteAt (v : Byte) (k : Nat) : (s.setFl v).byteAt k = s.byteAt k := rfl

/-! ### setIe -/

@[simp] theorem State.setIe_regs (b : Bool) : (s.setIe b).regs = s.regs := rfl
@[simp] theorem State.setIe_pc (b : Bool) : (s.setIe b).pc = s.pc := rfl
@[simp] theorem State.setIe_fl (b : Bool) : (s.setIe b).fl = s.fl := rfl
@[simp] theorem State.setIe_ie (b : Bool) : (s.setIe b).ie = b := rfl
@[simp] theorem State.setIe_run (b : Bool) : (s.setIe b).run = s.run := rfl
@[simp] theorem State.setIe_mem (b : Bool) : (s.setIe b).mem = s.mem := rfl
@[simp] theorem State.setIe_out (b : Bool) : (s.setIe b).out = s.out := rfl
@[simp] theorem State.setIe_timerLast (b : Bool) : (s.setIe b).timerLast = s.timerLast := rfl
@[simp] theorem State.setIe_cycle (b : Bool) : (s.setIe b).cycle = s.cycle := rfl
@[simp] theorem State.setIe_reg (b : Bool) (q : Reg) : (s.setIe b).reg q = s.reg q := rfl
@[simp] theorem State.setIe_byteAt (b : Bool) (k : Nat) : (s.setIe b).byteAt k = s.byteAt k := rfl

/-! ### setRun -/

@[simp] theorem State.setRun_regs (r : RunState) : (s.setRun r).regs = s.regs := rfl
@[simp] theorem State.setRun_pc (r : RunState) : (s.setRun r).pc = s.pc := rfl
@[simp] theorem State.setRun_fl (r : RunState) : (s.setRun r).fl = s.fl := rfl
@[simp] theorem State.setRun_ie (r : RunState) : (s.setRun r).ie = s.ie := rfl
@[simp] theorem State.setRun_run (r : RunState) : (s.setRun r).run = r := rfl
@[simp] theorem State.setRun_mem (r : RunState) : (s.setRun r).mem = s.mem := rfl
@[simp] theorem State.setRun_out (r : RunState) : (s.setRun r).out = s.out := rfl
@[simp] theorem State.setRun_timerLast (r : RunState) : (s.setRun r).timerLast = s.timerLast := rfl
@[simp] theorem State.setRun_cycle (r : RunState) : (s.setRun r).cycle = s.cycle := rfl
@[simp] theorem State.setRun_reg (r : RunState) (q : Reg) : (s.setRun r).reg q = s.reg q := rfl
@[simp] theorem State.setRun_byteAt (r : RunState) (k : Nat) : (s.setRun r).byteAt k = s.byteAt k := rfl

/-! ### setMem -/

@[simp] theorem State.setMem_regs (a : Nat) (v : Byte) : (s.setMem a v).regs = s.regs := rfl
@[simp] theorem State.setMem_pc (a : Nat) (v : Byte) : (s.setMem a v).pc = s.pc := rfl
@[simp] theorem State.setMem_fl (a : Nat) (v : Byte) : (s.setMem a v).fl = s.fl := rfl
@[simp] theorem State.setMem_ie (a : Nat) (v : Byte) : (s.setMem a v).ie = s.ie := rfl
@[simp] theorem State.setMem_run (a : Nat) (v : Byte) : (s.setMem a v).run = s.run := rfl
@[simp] theorem State.setMem_mem (a : Nat) (v : Byte) : (s.setMem a v).mem = Memory.write s.mem a v := rfl
@[simp] theorem State.setMem_out (a : Nat) (v : Byte) : (s.setMem a v).out = s.out := rfl
@[simp] theorem State.setMem_timerLast (a : Nat) (v : Byte) : (s.setMem a v).timerLast = s.timerLast := rfl
@[simp] theorem State.setMem_cycle (a : Nat) (v : Byte) : (s.setMem a v).cycle = s.cycle := rfl
@[simp] theorem State.setMem_reg (a : Nat) (v : Byte) (q : Reg) : (s.setMem a v).reg q = s.reg q := rfl

/-! ### emit -/

@[simp] theorem State.emit_regs (k : OutKind) (v : Byte) : (s.emit k v).regs = s.regs := rfl
@[simp] theorem State.emit_pc (k : OutKind) (v : Byte) : (s.emit k v).pc = s.pc := rfl
@[simp] theorem State.emit_fl (k : OutKind) (v : Byte) : (s.emit k v).fl = s.fl := rfl
@[simp] theorem State.emit_ie (k : OutKind) (v : Byte) : (s.emit k v).ie = s.ie := rfl
@[simp] theorem State.emit_run (k : OutKind) (v : Byte) : (s.emit k v).run = s.run := rfl
@[simp] theorem State.emit_mem (k : OutKind) (v : Byte) : (s.emit k v).mem = s.mem := rfl
@[simp] theorem State.emit_out (k : OutKind) (v : Byte) : (s.emit k v).out = s.out ++ [⟨k, v⟩] := rfl
@[simp] theorem State.emit_timerLast (k : OutKind) (v : Byte) : (s.emit k v).timerLast = s.timerLast := rfl
@[simp] theorem State.emit_cycle (k : OutKind) (v : Byte) : (s.emit k v).cycle = s.cycle := rfl
@[simp] theorem State.emit_reg (k : OutKind) (v : Byte) (q : Reg) : (s.emit k v).reg q = s.reg q := rfl
@[simp] theorem State.emit_byteAt (k : OutKind) (v : Byte) (a : Nat) : (s.emit k v).byteAt a = s.byteAt a := rfl

/-! ### advance -/

@[simp] theorem State.advance_regs (n : Byte) : (s.advance n).regs = s.regs := rfl
@[simp] theorem State.advance_pc (n : Byte) : (s.advance n).pc = s.pc + 1 + n := rfl
@[simp] theorem State.advance_fl (n : Byte) : (s.advance n).fl = s.fl := rfl
@[simp] theorem State.advance_ie (n : Byte) : (s.advance n).ie = s.ie := rfl
@[simp] theorem State.advance_run (n : Byte) : (s.advance n).run = s.run := rfl
@[simp] theorem State.advance_mem (n : Byte) : (s.advance n).mem = s.mem := rfl
@[simp] theorem State.advance_out (n : Byte) : (s.advance n).out = s.out := rfl
@[simp] theorem State.advance_timerLast (n : Byte) : (s.advance n).timerLast = s.timerLast := rfl
@[simp] theorem State.advance_cycle (n : Byte) : (s.advance n).cycle = s.cycle := rfl
@[simp] theorem State.advance_reg (n : Byte) (q : Reg) : (s.advance n).reg q = s.reg q := rfl
@[simp] theorem State.advance_byteAt (n : Byte) (k : Nat) : (s.advance n).byteAt k = s.byteAt k := rfl

/-! ### raise -/

@[simp] theorem State.raise_regs (c : Cause) : (s.raise c).regs = s.regs := rfl
@[simp] theorem State.raise_pc (c : Cause) : (s.raise c).pc = s.pc := rfl
@[simp] theorem State.raise_fl (c : Cause) : (s.raise c).fl = s.fl := rfl
@[simp] theorem State.raise_ie (c : Cause) : (s.raise c).ie = s.ie := rfl
@[simp] theorem State.raise_run (c : Cause) : (s.raise c).run = .faulted ⟨c, s.pc⟩ := rfl
@[simp] theorem State.raise_mem (c : Cause) : (s.raise c).mem = s.mem := rfl
@[simp] theorem State.raise_out (c : Cause) : (s.raise c).out = s.out := rfl
@[simp] theorem State.raise_timerLast (c : Cause) : (s.raise c).timerLast = s.timerLast := rfl
@[simp] theorem State.raise_cycle (c : Cause) : (s.raise c).cycle = s.cycle := rfl
@[simp] theorem State.raise_reg (c : Cause) (q : Reg) : (s.raise c).reg q = s.reg q := rfl
@[simp] theorem State.raise_byteAt (c : Cause) (k : Nat) : (s.raise c).byteAt k = s.byteAt k := rfl

/-! ### Registers -/

theorem Regs.get_set (rs : Regs) (r q : Reg) (v : Byte) :
    (rs.set r v).get q = if q = r then v else rs.get q := by
  cases r <;> cases q <;> rfl

/-- Register files that agree on every register are equal. -/
theorem Regs.ext_get {x y : Regs} (h : ∀ r, x.get r = y.get r) : x = y := by
  have h0 := h .r0; have h1 := h .r1; have h2 := h .r2; have h3 := h .r3
  have h4 := h .r4; have h5 := h .r5; have h6 := h .r6; have h7 := h .r7
  cases x; cases y
  simp_all [Regs.get]

@[simp] theorem State.setReg_reg (r : Reg) (v : Byte) (q : Reg) :
    (s.setReg r v).reg q = if q = r then v else s.reg q :=
  Regs.get_set s.regs r q v

/-- States that agree on every register have the same register file. -/
theorem State.regs_ext {s t : State} (h : ∀ r, s.reg r = t.reg r) : s.regs = t.regs :=
  Regs.ext_get h

end Sys2Proof.Machine
end

