-- ==== Sys2Proof/Laws/Ops.lean ====
section
/-! SUPPORT. For each shared operation of Machine/Ops.lean, what it does: as an equation where it has one, and what it
leaves unchanged however it ends. -/

namespace Sys2Proof.Machine

/-! ### Sequences -/

/-- The state a sequence of statements leaves, however it ends. -/
def Res.state : Res → State
  | .ok s => s
  | .raised _ s => s

@[simp] theorem Res.ok_andThen (s : State) (f : State → Res) : (Res.ok s).andThen f = f s := rfl
@[simp] theorem Res.raised_andThen (c : Cause) (s : State) (f : State → Res) :
    (Res.raised c s).andThen f = .raised c s := rfl
@[simp] theorem Res.ok_outcome (s : State) : (Res.ok s).outcome = .next s := rfl
@[simp] theorem Res.raised_outcome (c : Cause) (s : State) : (Res.raised c s).outcome = .next (s.raise c) := rfl
@[simp] theorem Res.ok_state (s : State) : (Res.ok s).state = s := rfl
@[simp] theorem Res.raised_state (c : Cause) (s : State) : (Res.raised c s).state = s := rfl

/-- Everything a finished sequence can answer: a next state, FAULTED if the sequence raised. -/
theorem Res.outcome_cases (r : Res) :
    r.outcome = .next r.state ∧ r = .ok r.state ∨
      ∃ c, r = .raised c r.state ∧ r.outcome = .next (r.state.raise c) := by
  cases r with
  | ok s => exact .inl ⟨rfl, rfl⟩
  | raised c s => exact .inr ⟨c, rfl, rfl⟩

theorem Res.andThen_assoc (r : Res) (f g : State → Res) :
    (r.andThen f).andThen g = r.andThen fun s => (f s).andThen g := by
  cases r <;> rfl

/-- A property of states that holds after the first part and is kept by the second holds after both. -/
theorem Res.state_andThen {P : State → Prop} {r : Res} {f : State → Res} (hr : P r.state)
    (hf : ∀ s, P s → P (f s).state) : P (r.andThen f).state := by
  cases r with
  | ok s => exact hf s hr
  | raised c s => exact hr

/-! ### Addresses -/

theorem addrExists_iff (a : Byte) : addrExists a.toNat = true ↔ a ≠ 0xFF#8 := by
  have ha := a.isLt
  have h1 : a = 0xFF#8 ↔ a.toNat = 255 := ⟨fun h => by simp [h], fun e => BitVec.eq_of_toNat_eq (by simpa using e)⟩
  rw [ne_eq, h1, addrExists, decide_eq_true_iff, Config.memSize]
  omega

theorem addrExists_false_iff (a : Byte) : addrExists a.toNat = false ↔ a = 0xFF#8 := by
  rw [← Bool.not_eq_true, addrExists_iff, not_not]

/-! ### Memory access -/

theorem memRead_eq (a : Byte) (s : State) :
    memRead a s = if a = 0xFF#8 then .error (.memRange 0xFF#8) else .ok (s.byteAt a.toNat) := by
  unfold memRead
  by_cases h : a = 0xFF#8
  · subst h; rfl
  · simp [(addrExists_iff a).2 h, h]

theorem memWrite_eq (a v : Byte) (s : State) :
    memWrite a v s = if a = 0xFF#8 then .raised (.memRange 0xFF#8) s else .ok (s.setMem a.toNat v) := by
  unfold memWrite
  by_cases h : a = 0xFF#8
  · subst h; rfl
  · simp [(addrExists_iff a).2 h, h]

@[simp] theorem State.setMem_byteAt (s : State) (a : Nat) (v : Byte) (k : Nat) :
    (s.setMem a v).byteAt k = if k = a then v else s.byteAt k :=
  Memory.read_write s.mem a v k

/-! ### The stack engine -/

theorem decSp_eq (s : State) : decSp s = s.setReg .r7 (s.reg .r7 - 1#8) := rfl

/-- A push, as one equation (43_stack_call.md R140). -/
theorem push_eq (v : Byte) (s : State) :
    push v s = if s.reg .r7 - 1#8 = 0xFF#8 then .raised (.memRange 0xFF#8) (s.setReg .r7 (s.reg .r7 - 1#8))
      else .ok ((s.setReg .r7 (s.reg .r7 - 1#8)).setMem (s.reg .r7 - 1#8).toNat v) := by
  simp [push, decSp_eq, memWrite_eq]

/-- A push of a register, as one equation: R7 is pushed as already decremented (43_stack_call.md R142). -/
theorem pushReg_eq (r : Reg) (s : State) :
    pushReg r s = push (if r = .r7 then s.reg .r7 - 1#8 else s.reg r) s := by
  simp [pushReg, decSp_eq]

/-- A pop into a register, as one equation (43_stack_call.md R141, R143). -/
theorem popReg_eq (r : Reg) (s : State) :
    popReg r s = if s.reg .r7 = 0xFF#8 then .raised (.memRange 0xFF#8) s
      else .ok ((s.setReg r (s.byteAt (s.reg .r7).toNat)).setReg .r7
        (if r = .r7 then s.byteAt (s.reg .r7).toNat + 1#8 else s.reg .r7 + 1#8)) := by
  unfold popReg
  rw [memRead_eq]
  by_cases h : s.reg .r7 = 0xFF#8 <;> by_cases hr : r = .r7 <;> simp [h, hr, eq_comm]

/-- What every statement but the writes of PC, FL, IE, RUN and the output leaves unchanged. -/
structure SameControl (s t : State) : Prop where
  pc : t.pc = s.pc
  fl : t.fl = s.fl
  ie : t.ie = s.ie
  run : t.run = s.run
  out : t.out = s.out
  timerLast : t.timerLast = s.timerLast
  cycle : t.cycle = s.cycle

theorem SameControl.refl (s : State) : SameControl s s := ⟨rfl, rfl, rfl, rfl, rfl, rfl, rfl⟩

theorem SameControl.trans {s t u : State} (h : SameControl s t) (k : SameControl t u) : SameControl s u :=
  ⟨k.pc.trans h.pc, k.fl.trans h.fl, k.ie.trans h.ie, k.run.trans h.run, k.out.trans h.out,
    k.timerLast.trans h.timerLast, k.cycle.trans h.cycle⟩

theorem memWrite_wf (a v : Byte) (s : State) (h : Memory.wf s.mem = true) :
    Memory.wf (memWrite a v s).state.mem = true := by
  unfold memWrite
  split
  · next ha => exact Memory.write_wf s.mem a.toNat v h ha
  · exact h

theorem pushReg_wf (r : Reg) (s : State) (h : Memory.wf s.mem = true) :
    Memory.wf (pushReg r s).state.mem = true :=
  memWrite_wf _ _ (decSp s) h

/-- A push changes R7 and memory alone, however it ends. -/
theorem pushReg_same (r : Reg) (s : State) :
    SameControl s (pushReg r s).state ∧ ∀ q : Reg, q ≠ .r7 → (pushReg r s).state.reg q = s.reg q := by
  rw [pushReg_eq, push_eq]
  split <;> exact ⟨⟨rfl, rfl, rfl, rfl, rfl, rfl, rfl⟩, fun q hq => by simp [hq]⟩

theorem pushRegs_same : ∀ (rs : List Reg) (s : State),
    SameControl s (pushRegs rs s).state ∧ ∀ q : Reg, q ≠ .r7 → (pushRegs rs s).state.reg q = s.reg q
  | [], s => ⟨.refl s, fun _ _ => rfl⟩
  | r :: rs, s =>
    Res.state_andThen (P := fun t => SameControl s t ∧ ∀ q : Reg, q ≠ .r7 → t.reg q = s.reg q)
      (pushReg_same r s) fun t ht =>
        ⟨ht.1.trans (pushRegs_same rs t).1, fun q hq => ((pushRegs_same rs t).2 q hq).trans (ht.2 q hq)⟩

theorem pushRegs_wf : ∀ (rs : List Reg) (s : State), Memory.wf s.mem = true →
    Memory.wf (pushRegs rs s).state.mem = true
  | [], _, h => h
  | r :: rs, s, h =>
    Res.state_andThen (P := fun t => Memory.wf t.mem = true) (pushReg_wf r s h) fun t ht => pushRegs_wf rs t ht

/-- A pop changes its register and R7 alone, however it ends. -/
theorem popReg_same (r : Reg) (s : State) :
    SameControl s (popReg r s).state ∧ (popReg r s).state.mem = s.mem ∧
      ∀ q : Reg, q ≠ r → q ≠ .r7 → (popReg r s).state.reg q = s.reg q := by
  rw [popReg_eq]
  split <;> exact ⟨⟨rfl, rfl, rfl, rfl, rfl, rfl, rfl⟩, rfl, fun q hq h7 => by simp [hq, h7]⟩

theorem popRegs_same : ∀ (rs : List Reg) (s : State),
    SameControl s (popRegs rs s).state ∧ (popRegs rs s).state.mem = s.mem
  | [], s => ⟨.refl s, rfl⟩
  | r :: rs, s =>
    Res.state_andThen (P := fun t => SameControl s t ∧ t.mem = s.mem)
      ⟨(popReg_same r s).1, (popReg_same r s).2.1⟩ fun t ht =>
        ⟨ht.1.trans (popRegs_same rs t).1, (popRegs_same rs t).2.trans ht.2⟩

/-! ### The timer check -/

@[simp] theorem timerCheck_pc (now : Nat) (s : State) : (timerCheck now s).pc = s.pc := rfl
@[simp] theorem timerCheck_fl (now : Nat) (s : State) : (timerCheck now s).fl = s.fl := rfl
@[simp] theorem timerCheck_ie (now : Nat) (s : State) : (timerCheck now s).ie = s.ie := rfl
@[simp] theorem timerCheck_run (now : Nat) (s : State) : (timerCheck now s).run = s.run := rfl
@[simp] theorem timerCheck_mem (now : Nat) (s : State) : (timerCheck now s).mem = s.mem := rfl
@[simp] theorem timerCheck_out (now : Nat) (s : State) : (timerCheck now s).out = s.out := rfl
@[simp] theorem timerCheck_byteAt (now : Nat) (s : State) (k : Nat) :
    (timerCheck now s).byteAt k = s.byteAt k := rfl
@[simp] theorem timerCheck_cycle (now : Nat) (s : State) : (timerCheck now s).cycle = s.cycle + 1 := rfl
@[simp] theorem timerCheck_timerLast (now : Nat) (s : State) :
    (timerCheck now s).timerLast = if timerDue now s then now else s.timerLast := by
  simp [timerCheck, Bool.cond_eq_ite]

@[simp] theorem timerCheck_reg (now : Nat) (s : State) (q : Reg) :
    (timerCheck now s).reg q = if q = .r6 ∧ timerDue now s = true then s.reg .r6 ||| 1#8 else s.reg q := by
  have h : (timerCheck now s).reg q =
      (s.setReg .is (cond (timerDue now s) (s.reg .is ||| 0x01) (s.reg .is))).reg q := rfl
  rw [h, State.setReg_reg]
  by_cases hq : q = .r6 <;> cases timerDue now s <;> simp [hq]

/-! ### The interrupt check -/

/-- The line delivered is pending and unmasked, and every lower line is not (60_exceptions.md R203). -/
theorem pendingLine_some {s : State} {n : Fin 8} (h : pendingLine s = some n) :
    s.ie = true ∧ linePending s n = true ∧ ∀ m : Fin 8, m < n → linePending s m = false := by
  unfold pendingLine at h
  split at h
  · next hie =>
    refine ⟨hie, List.find?_some h, fun m hm => ?_⟩
    obtain ⟨-, as, bs, hab, has⟩ := List.find?_eq_some_iff_append.1 h
    have hmem : m ∈ as := by
      have hs : List.Pairwise (· < ·) (as ++ n :: bs) := hab ▸ (by decide : irqLines.Pairwise (· < ·))
      have hall : ∀ k : Fin 8, k ∈ irqLines := by decide
      have hin : m ∈ as ++ n :: bs := hab ▸ hall m
      rcases List.mem_append.1 hin with h1 | h1
      · exact h1
      · rcases List.mem_cons.1 h1 with h1 | h1
        · exact absurd (h1 ▸ hm) (lt_irrefl _)
        · have := (List.pairwise_cons.1 (List.pairwise_append.1 hs).2.1).1 m h1
          exact absurd (hm.trans this) (lt_irrefl _)
    simpa using has m hmem
  · simp at h

theorem pendingLine_of_ie_false {s : State} (h : s.ie = false) : pendingLine s = none := by
  simp [pendingLine, h]

/-! ### Interrupt entry and return -/

theorem loadVector_eq (n : Fin 8) (s : State) :
    loadVector n s = if vectorAddr n = 0xFF#8 then .raised (.memRange 0xFF#8) s
      else .ok (s.setPc (s.byteAt (vectorAddr n).toNat)) := by
  unfold loadVector
  rw [memRead_eq]
  by_cases h : vectorAddr n = 0xFF#8 <;> simp [h]

theorem acknowledge_eq (n : Fin 8) (s : State) :
    acknowledge n s = (s.setIe false).setReg .r6 (s.reg .r6 &&& ~~~(1#8 <<< n.val)) := rfl

theorem pushViaTr_eq (v : Byte) (s : State) : pushViaTr v s = push v (s.setReg .r4 v) := by
  simp [pushViaTr, pushReg_eq]

/-- A property that the statements of interrupt entry keep holds after it, however it ends. -/
theorem interruptEntry_keeps {P : State → Prop} (n : Fin 8) (s : State) (h0 : P (acknowledge n s))
    (htr : ∀ v t, P t → P (t.setReg .r4 v)) (hpush : ∀ r t, P t → P (pushReg r t).state)
    (hpc : ∀ v t, P t → P (t.setPc v)) : P (interruptEntry n s).state := by
  have hvia : ∀ v t, P t → P (pushViaTr v t).state := fun v t ht => hpush .r4 _ (htr v t ht)
  have hregs : ∀ rs t, P t → P (pushRegs rs t).state := by
    intro rs
    induction rs with
    | nil => exact fun t ht => ht
    | cons r rs ih => exact fun t ht => Res.state_andThen (hpush r t ht) ih
  refine Res.state_andThen (Res.state_andThen (Res.state_andThen (hvia _ _ h0) fun t ht => hvia _ t ht)
    fun t ht => hregs _ t ht) fun t ht => ?_
  rw [loadVector_eq]
  split
  · exact ht
  · exact hpc _ t ht

theorem interruptEntry_wf (n : Fin 8) (s : State) (h : Memory.wf s.mem = true) :
    Memory.wf (interruptEntry n s).state.mem = true :=
  interruptEntry_keeps (P := fun t => Memory.wf t.mem = true) n s h (fun _ _ h => h)
    (fun r t h => pushReg_wf r t h) fun _ _ h => h

/-- However interrupt entry ends, IE is 0, and FL, RUN, the output, R0 to R3, R5 and the timestamp are unchanged
(60_exceptions.md R204). -/
theorem interruptEntry_same (n : Fin 8) (s : State) :
    (interruptEntry n s).state.ie = false ∧ (interruptEntry n s).state.fl = s.fl ∧
      (interruptEntry n s).state.run = s.run ∧ (interruptEntry n s).state.out = s.out ∧
      (interruptEntry n s).state.timerLast = s.timerLast ∧ (interruptEntry n s).state.cycle = s.cycle ∧
      ∀ q : Reg, q ≠ .r4 → q ≠ .r6 → q ≠ .r7 → (interruptEntry n s).state.reg q = s.reg q :=
  interruptEntry_keeps
    (P := fun t => t.ie = false ∧ t.fl = s.fl ∧ t.run = s.run ∧ t.out = s.out ∧
      t.timerLast = s.timerLast ∧ t.cycle = s.cycle ∧ ∀ q : Reg, q ≠ .r4 → q ≠ .r6 → q ≠ .r7 → t.reg q = s.reg q) n s
    ⟨rfl, rfl, rfl, rfl, rfl, rfl, fun q _ h6 _ => by simp [acknowledge_eq, h6]⟩
    (fun v t h => ⟨h.1, h.2.1, h.2.2.1, h.2.2.2.1, h.2.2.2.2.1, h.2.2.2.2.2.1, fun q h4 h6 h7 => by
      simpa [h4] using h.2.2.2.2.2.2 q h4 h6 h7⟩)
    (fun r t h => by
      obtain ⟨hc, hr⟩ := pushReg_same r t
      rw [hc.ie, hc.fl, hc.run, hc.out, hc.timerLast, hc.cycle]
      exact ⟨h.1, h.2.1, h.2.2.1, h.2.2.2.1, h.2.2.2.2.1, h.2.2.2.2.2.1, fun q h4 h6 h7 =>
        (hr q h7).trans (h.2.2.2.2.2.2 q h4 h6 h7)⟩)
    fun _ _ h => h

/-- If interrupt entry raises, PC is unchanged and the fault is MemRange (60_exceptions.md R197, R212). -/
theorem interruptEntry_raised {n : Fin 8} {s t : State} {c : Cause} (h : interruptEntry n s = .raised c t) :
    t.pc = s.pc ∧ c = .memRange 0xFF#8 := by
  have hvia : ∀ v u, SameControl u (pushViaTr v u).state ∧ ∀ c' u', pushViaTr v u = .raised c' u' →
      c' = .memRange 0xFF#8 := by
    intro v u
    rw [pushViaTr_eq, push_eq]
    split
    · exact ⟨⟨rfl, rfl, rfl, rfl, rfl, rfl, rfl⟩, fun c' u' e => by cases e; rfl⟩
    · exact ⟨⟨rfl, rfl, rfl, rfl, rfl, rfl, rfl⟩, fun c' u' e => by cases e⟩
  have hregs : ∀ rs u c' u', pushRegs rs u = .raised c' u' → c' = .memRange 0xFF#8 := by
    intro rs
    induction rs with
    | nil => intro u c' u' e; cases e
    | cons r rs ih =>
      intro u c' u' e
      rw [pushRegs, pushReg_eq, push_eq] at e
      split at e
      · cases e; rfl
      · exact ih _ _ _ e
  unfold interruptEntry at h
  have h1 := hvia (acknowledge n s).pc (acknowledge n s)
  cases e1 : pushViaTr (acknowledge n s).pc (acknowledge n s) with
  | raised c1 t1 =>
    rw [e1] at h h1
    cases h
    exact ⟨h1.1.pc, h1.2 _ _ rfl⟩
  | ok t1 =>
    rw [e1] at h h1
    have h2 := hvia t1.fl t1
    simp only [Res.ok_andThen] at h
    cases e2 : pushViaTr t1.fl t1 with
    | raised c2 t2 =>
      rw [e2] at h h2
      cases h
      exact ⟨h2.1.pc.trans h1.1.pc, h2.2 _ _ rfl⟩
    | ok t2 =>
      rw [e2] at h h2
      have h3 := (pushRegs_same frameRegs t2).1
      have h3' := hregs frameRegs t2
      simp only [Res.ok_andThen] at h
      cases e3 : pushRegs frameRegs t2 with
      | raised c3 t3 =>
        rw [e3] at h h3
        cases h
        exact ⟨h3.pc.trans (h2.1.pc.trans h1.1.pc), h3' _ _ e3⟩
      | ok t3 =>
        rw [e3] at h h3
        simp only [Res.ok_andThen, loadVector_eq] at h
        split at h
        · cases h
          exact ⟨h3.pc.trans (h2.1.pc.trans h1.1.pc), rfl⟩
        · cases h

/-- The return from interrupt reads memory and never writes it, and leaves RUN, the output and the timestamp unchanged,
however it ends (46_iret.md R180). -/
theorem interruptReturn_same (s : State) :
    (interruptReturn s).state.mem = s.mem ∧ (interruptReturn s).state.run = s.run ∧
      (interruptReturn s).state.out = s.out ∧ (interruptReturn s).state.timerLast = s.timerLast ∧
      (interruptReturn s).state.cycle = s.cycle := by
  have hpop : ∀ r t, (popReg r t).state.mem = t.mem ∧ (popReg r t).state.run = t.run ∧
      (popReg r t).state.out = t.out ∧ (popReg r t).state.timerLast = t.timerLast ∧
      (popReg r t).state.cycle = t.cycle := fun r t =>
    ⟨(popReg_same r t).2.1, (popReg_same r t).1.run, (popReg_same r t).1.out, (popReg_same r t).1.timerLast,
      (popReg_same r t).1.cycle⟩
  have hregs := popRegs_same frameRegs s
  let P : State → Prop := fun t => t.mem = s.mem ∧ t.run = s.run ∧ t.out = s.out ∧
      t.timerLast = s.timerLast ∧ t.cycle = s.cycle
  have h0 : P (popRegs frameRegs s).state :=
    ⟨hregs.2, hregs.1.run, hregs.1.out, hregs.1.timerLast, hregs.1.cycle⟩
  refine Res.state_andThen (P := P) (Res.state_andThen (P := P) (Res.state_andThen (P := P) h0 fun t ht => ?_)
    fun t ht => ?_) fun t ht => ht
  · obtain ⟨h1, h2, h3, h4, h5⟩ := hpop .tr t
    exact ⟨h1.trans ht.1, h2.trans ht.2.1, h3.trans ht.2.2.1, h4.trans ht.2.2.2.1, h5.trans ht.2.2.2.2⟩
  · obtain ⟨h1, h2, h3, h4, h5⟩ := hpop .tr (t.setFl (t.reg .tr))
    exact ⟨h1.trans ht.1, h2.trans ht.2.1, h3.trans ht.2.2.1, h4.trans ht.2.2.2.1, h5.trans ht.2.2.2.2⟩

/-! ### Fetch -/

/-- The fetch looks at memory and PC alone. -/
theorem fetchInstr_congr {s t : State} (hm : t.mem = s.mem) (hp : t.pc = s.pc) : fetchInstr t = fetchInstr s := by
  have hw : ∀ k a, memWindow t k a = memWindow s k a := by
    intro k
    induction k with
    | zero => exact fun _ => rfl
    | succ k ih =>
      intro a
      have hr : memRead a t = memRead a s := by simp [memRead, State.byteAt, hm]
      simp only [memWindow, hr, ih]
  simp [fetchInstr, fetchWindow, hw, hp]

@[simp] theorem fetchInstr_timerCheck (now : Nat) (s : State) : fetchInstr (timerCheck now s) = fetchInstr s :=
  fetchInstr_congr rfl rfl

end Sys2Proof.Machine
end

