-- ==== Sys2Proof/Laws/PerInstr.lean ====
section
/-! SUPPORT. The per-instruction family Encoding: the encoded length of an instruction is what bits 7:6 of its opcode byte
say, and its operand bytes are what the row's columns NOPS and PCSET announce (30_encoding.md R82, R83). -/

/-- The length of the encoding is 1 + NOPS, with NOPS read from the opcode byte; the opcode byte finds the row again; and
its bit 4 is the row's PC flag. -/
def Sys2Proof.Laws.Encoding.Statement (i : Sys2Proof.Instr) : Prop :=
  (Sys2Proof.encode i).length = 1 + Sys2Proof.opcodeNops i.op.opcode ∧
    Sys2Proof.lookupOp i.op.opcode = some i.op ∧ Sys2Proof.opcodePcset i.op.opcode = i.op.pcset

namespace Sys2Proof.Laws.Encoding

theorem all (i : Instr) : Statement i :=
  ⟨by simp [encode_length, Instr.length], lookupOp_opcode i.op, opcodePcset_opcode i.op⟩

theorem hlt : Statement .hlt := all _
theorem ldi (a imm : Byte) : Statement (.ldi a imm) := all _
theorem prn (a : Byte) : Statement (.prn a) := all _
theorem pra (a : Byte) : Statement (.pra a) := all _
theorem mul (a b : Byte) : Statement (.mul a b) := all _
theorem add (a b : Byte) : Statement (.add a b) := all _
theorem sub (a b : Byte) : Statement (.sub a b) := all _
theorem push (a : Byte) : Statement (.push a) := all _
theorem pop (a : Byte) : Statement (.pop a) := all _
theorem call (a : Byte) : Statement (.call a) := all _
theorem ret : Statement .ret := all _
theorem st (a b : Byte) : Statement (.st a b) := all _
theorem jmp (a : Byte) : Statement (.jmp a) := all _
theorem cmp (a b : Byte) : Statement (.cmp a b) := all _
theorem jeq (a : Byte) : Statement (.jeq a) := all _
theorem jne (a : Byte) : Statement (.jne a) := all _
theorem iret : Statement .iret := all _

end Sys2Proof.Laws.Encoding
end

