-- ==== Sys2Proof/Laws/Step.lean ====
section
/-! SUPPORT. Everything a step can do. -/

namespace Sys2Proof.Machine

@[simp] theorem afterTimer_pc (s : State) : (afterTimer s).pc = s.pc := rfl
@[simp] theorem afterTimer_fl (s : State) : (afterTimer s).fl = s.fl := rfl
@[simp] theorem afterTimer_ie (s : State) : (afterTimer s).ie = s.ie := rfl
@[simp] theorem afterTimer_run (s : State) : (afterTimer s).run = s.run := rfl
@[simp] theorem afterTimer_mem (s : State) : (afterTimer s).mem = s.mem := rfl
@[simp] theorem afterTimer_out (s : State) : (afterTimer s).out = s.out := rfl

/-- The timer check does not change what the cycle fetches. -/
@[simp] theorem fetchInstr_afterTimer (s : State) : fetchInstr (afterTimer s) = fetchInstr s :=
  fetchInstr_timerCheck _ s

theorem step_running {s : State} (h : s.run = .running) :
    step s = cycleAfterTimer (afterTimer s) := by simp [step, h]

theorem step_halted {s : State} (h : s.run = .halted) : step s = .next s := by simp [step, h]

theorem step_faulted {s : State} {r : FaultRecord} (h : s.run = .faulted r) :
    step s = .fault (.runFaulted r) := by simp [step, h]

theorem cycle_interrupt {s : State} {n : Fin 8} (h : pendingLine s = some n) :
    cycleAfterTimer s = (interruptEntry n s).outcome := by simp [cycleAfterTimer, h]

theorem cycle_instruction {s : State} (h : pendingLine s = none) : cycleAfterTimer s = fetchExecute s := by
  simp [cycleAfterTimer, h]

theorem fetchExecute_ok {s : State} {i : Instr} (h : fetchInstr s = .ok i) : fetchExecute s = exec i s := by
  simp [fetchExecute, h]

theorem fetchExecute_error {s : State} {c : Cause} (h : fetchInstr s = .error c) :
    fetchExecute s = .next (s.raise c) := by simp [fetchExecute, h]

/-- If a step answers a next state, then the machine was halted and is unchanged; or it was running and, after the timer
check, it entered an interrupt, or ran the instruction it fetched, or its fetch raised a fault (40_cycle.md R101). -/
theorem step_cases {s t : State} (h : step s = .next t) :
    s.run = .halted ∧ t = s ∨
      s.run = .running ∧ ∃ u, u = afterTimer s ∧
        ((∃ n, pendingLine u = some n ∧ (interruptEntry n u).outcome = .next t) ∨
          pendingLine u = none ∧
            ((∃ i, fetchInstr u = .ok i ∧ exec i u = .next t) ∨ ∃ c, fetchInstr u = .error c ∧ t = u.raise c)) := by
  cases hr : s.run with
  | halted => rw [step_halted hr] at h; cases h; exact .inl ⟨rfl, rfl⟩
  | faulted r => rw [step_faulted hr] at h; cases h
  | running =>
    rw [step_running hr] at h
    refine .inr ⟨rfl, _, rfl, ?_⟩
    generalize afterTimer s = u at h ⊢
    cases hp : pendingLine u with
    | some n => exact .inl ⟨n, rfl, (cycle_interrupt hp).symm.trans h⟩
    | none =>
      rw [cycle_instruction hp] at h
      refine .inr ⟨rfl, ?_⟩
      cases hf : fetchInstr u with
      | ok i => exact .inl ⟨i, rfl, (fetchExecute_ok hf).symm.trans h⟩
      | error c =>
        rw [fetchExecute_error hf] at h
        cases h
        exact .inr ⟨c, rfl, rfl⟩

end Sys2Proof.Machine
end

