-- ==== Sys2Proof/Tests/Slice0.lean ====
section
/-! SUPPORT. Tests of the model against the spec's own vectors (95_test_vectors.md V1 to V75), decoding of words written
out bit by bit, the smoke test of well-formedness, and a witness for the hypotheses of every statement that has some. -/

namespace Sys2Proof.Tests
open Sys2Proof Sys2Proof.Machine

/-- A start state: the reset state with PC at `pc` and the bytes in memory from `pc` up. -/
def start (pc : Byte) (bytes : List Byte) : State :=
  { State.reset with pc := pc, mem := Memory.place pc.toNat bytes [] }

/-- A state with one more register written. -/
def set (r : Reg) (v : Byte) (s : State) : State := s.setReg r v

/-- A state with bytes placed in memory. -/
def put (a : Nat) (bytes : List Byte) (s : State) : State := { s with mem := Memory.place a bytes s.mem }

/-- What a next state shows. -/
def look {α : Type} (o : Outcome) (f : State → α) : Option α :=
  match o with
  | .next t => some (f t)
  | .fault _ => none
  | .refused _ => none

/-! ### Well-formedness: each check refuses an ill-formed term -/

theorem test_ldi_well_formed : (Instr.ldi 7 0xFF).wellFormed = true := by decide
theorem test_first_operand_8_ill_formed : (Instr.add 8 0).wellFormed = false := by decide
theorem test_second_operand_8_ill_formed : (Instr.add 0 8).wellFormed = false := by decide
theorem test_single_operand_8_ill_formed : (Instr.push 8).wellFormed = false := by decide

/-! ### Decoding: one word per instruction, its opcode written out as operand count (7:6), ALU bit (5), PC bit (4) and
identifier (3:0) of 30_encoding.md R81 and R85 -/

theorem test_decode_hlt : decode [0b00000001] = .ok (.hlt, []) := by decide
theorem test_decode_ldi : decode [0b10000010, 0b00000101, 0b11111110] = .ok (.ldi 5 0xFE, []) := by decide
theorem test_decode_prn : decode [0b01000111, 0b00000110] = .ok (.prn 6, []) := by decide
theorem test_decode_pra : decode [0b01001000, 0b00000001] = .ok (.pra 1, []) := by decide
theorem test_decode_mul : decode [0b10100010, 0b00000010, 0b00000011] = .ok (.mul 2 3, []) := by decide
theorem test_decode_add : decode [0b10100000, 0b00000100, 0b00000111] = .ok (.add 4 7, []) := by decide
theorem test_decode_sub : decode [0b10100001, 0b00000000, 0b00000001] = .ok (.sub 0 1, []) := by decide
theorem test_decode_push : decode [0b01000101, 0b00000111] = .ok (.push 7, []) := by decide
theorem test_decode_pop : decode [0b01000110, 0b00000010] = .ok (.pop 2, []) := by decide
theorem test_decode_call : decode [0b01010000, 0b00000001] = .ok (.call 1, []) := by decide
theorem test_decode_ret : decode [0b00010001] = .ok (.ret, []) := by decide
theorem test_decode_st : decode [0b10000100, 0b00000011, 0b00000010] = .ok (.st 3 2, []) := by decide
theorem test_decode_jmp : decode [0b01010100, 0b00000010] = .ok (.jmp 2, []) := by decide
theorem test_decode_cmp : decode [0b10100111, 0b00000001, 0b00000110] = .ok (.cmp 1 6, []) := by decide
theorem test_decode_jeq : decode [0b01010101, 0b00000011] = .ok (.jeq 3, []) := by decide
theorem test_decode_jne : decode [0b01010110, 0b00000011] = .ok (.jne 3, []) := by decide
theorem test_decode_iret : decode [0b00010011] = .ok (.iret, []) := by decide

/-- The decoder hands a register operand on unmasked (30_encoding.md R84, R90). -/
theorem test_decode_unmasked : decode [0x82, 0x08, 0x05] = .ok (.ldi 8 5, []) := by decide
/-- V57, V58: bytes off the table, with the operands their bits announce or without. -/
theorem test_decode_unknown :
    decode [0xFF] = .error (.unknownOpcode 0xFF) ∧ decode [0x83, 0x00, 0x01] = .error (.unknownOpcode 0x83) := by decide
theorem test_decode_truncated : decode [0x82, 0x00] = .error .truncated ∧ decode [] = .error .truncated := by decide
/-- The first byte of an instruction is bits 7:0 of its word (spec/opcode_table.json). -/
theorem test_decode_table_word : decodeTableWord 24 0x080082 = some (.ldi 0 8) := by decide
/-- Bits above the row's width are read as zero. -/
theorem test_decode_table_word_short : decodeTableWord 8 0xFFFF82 = some (.ldi 0 0) := by decide

/-! ### One step per vector of 95_test_vectors.md -/

/-- V1. -/
theorem test_hlt : look (step (start 0 [0x01])) (fun t => (t.run, t.pc)) = some (.halted, 0x01) := by decide
/-- V61: HLT in the last cell. -/
theorem test_hlt_last_cell : look (step (start 0xFE [0x01])) (fun t => (t.run, t.pc)) = some (.halted, 0xFF) := by decide
/-- V3: LDI may write the stack pointer. -/
theorem test_ldi_sp : look (step (start 0 [0x82, 0x07, 0x80])) (fun t => (t.reg .r7, t.pc)) = some (0x80, 0x03) := by
  decide
/-- V4. -/
theorem test_ldi_reg_range : look (step (start 0 [0x82, 0x08, 0x05])) (fun t => (t.run, t.pc, t.reg .r0)) =
    some (.faulted ⟨.regRange 0x08, 0x00⟩, 0x00, 0x00) := by decide
/-- V5. -/
theorem test_prn : look (step (set .r0 0xFF (start 0 [0x47, 0x00]))) (fun t => (t.out, t.pc)) =
    some ([⟨.prn, 255⟩], 0x02) := by decide
/-- V6. -/
theorem test_pra : look (step (set .r1 0x41 (start 0 [0x48, 0x01]))) (fun t => (t.out, t.pc)) =
    some ([⟨.pra, 65⟩], 0x02) := by decide
/-- V7: the sum wraps and FL does not change. -/
theorem test_add_wraps : look (step (set .r1 0x64 (set .r0 0xC8 (start 0 [0xA0, 0x00, 0x01]))))
    (fun t => (t.reg .r0, t.reg .r1, t.fl)) = some (0x2C, 0x64, 0x00) := by decide
/-- V17: the first operand is checked first. -/
theorem test_add_checks_first_operand : look (step (start 0 [0xA0, 0x09, 0x08])) (fun t => t.run) =
    some (.faulted ⟨.regRange 0x09, 0x00⟩) := by decide
/-- V11. -/
theorem test_sub_wraps : look (step (set .r1 0x0A (set .r0 0x05 (start 0 [0xA1, 0x00, 0x01]))))
    (fun t => (t.reg .r0, t.reg .r1)) = some (0xFB, 0x0A) := by decide
/-- V12: the destination is also the source. -/
theorem test_sub_same : look (step (set .r3 0x77 (start 0 [0xA1, 0x03, 0x03]))) (fun t => t.reg .r3) = some 0x00 := by
  decide
/-- V14. -/
theorem test_mul_low_byte : look (step (set .r1 0xFF (set .r0 0xFF (start 0 [0xA2, 0x00, 0x01]))))
    (fun t => t.reg .r0) = some 0x01 := by decide
/-- V16: the second operand is checked. -/
theorem test_mul_reg_range : look (step (set .r0 0x03 (start 0 [0xA2, 0x00, 0x09]))) (fun t => (t.run, t.reg .r0)) =
    some (.faulted ⟨.regRange 0x09, 0x00⟩, 0x03) := by decide
/-- V19: PUSH R7 stores the decremented stack pointer. -/
theorem test_push_sp : look (step (start 0 [0x45, 0x07])) (fun t => (t.reg .r7, t.byteAt 0xF3, t.pc)) =
    some (0xF3, 0xF3, 0x02) := by decide
/-- V20: the decrement stands, and so does PC. -/
theorem test_push_at_zero : look (step (set .r7 0x00 (start 0 [0x45, 0x00]))) (fun t => (t.run, t.reg .r7, t.pc)) =
    some (.faulted ⟨.memRange 0xFF, 0x00⟩, 0xFF, 0x00) := by decide
/-- V23: POP R7 leaves the popped byte plus one. -/
theorem test_pop_sp : look (step (put 0xF2 [0x20] (set .r7 0xF2 (start 0 [0x46, 0x07])))) (fun t => (t.reg .r7, t.pc)) =
    some (0x21, 0x02) := by decide
/-- V25: the last cell can be popped. -/
theorem test_pop_last_cell : look (step (put 0xFE [0x99] (set .r7 0xFE (start 0 [0x46, 0x00]))))
    (fun t => (t.reg .r0, t.reg .r7, t.run)) = some (0x99, 0xFF, .running) := by decide
/-- V28. -/
theorem test_call : look (step (set .r1 0x0B (start 0x06 [0x50, 0x01])))
    (fun t => (t.reg .r4, t.reg .r7, t.byteAt 0xF3, t.pc)) = some (0x08, 0xF3, 0x08, 0x0B) := by decide
/-- V29: R4 is overwritten before it is read. -/
theorem test_call_r4 : look (step (set .r4 0x77 (start 0 [0x50, 0x04]))) (fun t => (t.reg .r4, t.pc)) =
    some (0x02, 0x02) := by decide
/-- V32. -/
theorem test_ret : look (step (put 0xF3 [0x08] (set .r7 0xF3 (start 0 [0x11])))) (fun t => (t.reg .r4, t.reg .r7, t.pc)) =
    some (0x08, 0xF4, 0x08) := by decide
/-- V33. -/
theorem test_ret_at_ff : look (step (set .r4 0x12 (set .r7 0xFF (start 0 [0x11]))))
    (fun t => (t.run, t.reg .r4, t.reg .r7, t.pc)) = some (.faulted ⟨.memRange 0xFF, 0x00⟩, 0x12, 0xFF, 0x00) := by decide
/-- V34: the address register comes first. -/
theorem test_st : look (step (set .r2 0x0A (set .r3 0x80 (start 0 [0x84, 0x03, 0x02]))))
    (fun t => (t.byteAt 0x80, t.byteAt 0x0A, t.pc)) = some (0x0A, 0x00, 0x03) := by decide
/-- V36. -/
theorem test_st_at_ff : look (step (set .r1 0x01 (set .r0 0xFF (start 0 [0x84, 0x00, 0x01]))))
    (fun t => (t.run, t.byteAt 0xFE)) = some (.faulted ⟨.memRange 0xFF, 0x00⟩, 0x00) := by decide
/-- V38. -/
theorem test_jmp : look (step (set .r2 0x0F (start 0 [0x54, 0x02]))) (fun t => (t.pc, t.reg .r4)) =
    some (0x0F, 0x00) := by decide
/-- V41: the comparison is unsigned and replaces FL. -/
theorem test_cmp_greater : look (step { set .r1 0x01 (set .r0 0xFF (start 0 [0xA7, 0x00, 0x01])) with fl := 0x01 })
    (fun t => (t.fl, t.pc)) = some (0x02, 0x03) := by decide
/-- V42: bits 7:3 are cleared. -/
theorem test_cmp_less : look (step { set .r1 0xFF (set .r0 0x01 (start 0 [0xA7, 0x00, 0x01])) with fl := 0xF8 })
    (fun t => t.fl) = some 0x04 := by decide
/-- V50: only bit 0 is tested. -/
theorem test_jeq_taken : look (step { set .r3 0x0C (start 0 [0x55, 0x03]) with fl := 0x07 }) (fun t => (t.pc, t.fl)) =
    some (0x0C, 0x07) := by decide
/-- V51. -/
theorem test_jeq_not_taken : look (step { set .r3 0x0C (start 0 [0x55, 0x03]) with fl := 0xF8 }) (fun t => t.pc) =
    some 0x02 := by decide
/-- V47. -/
theorem test_jne_taken : look (step { set .r3 0x0C (start 0x14 [0x56, 0x03]) with fl := 0x02 }) (fun t => t.pc) =
    some 0x0C := by decide
/-- V48. -/
theorem test_jne_not_taken : look (step { set .r3 0x0C (start 0x14 [0x56, 0x03]) with fl := 0x01 }) (fun t => t.pc) =
    some 0x16 := by decide
/-- V54: the highest frame that fits. -/
theorem test_iret : look (step { put 0xF6 [1, 2, 3, 4, 5, 6, 7, 4, 0x30] (set .r7 0xF6 (start 0 [0x13])) with ie := false })
    (fun t => (t.regs, t.fl, t.pc, t.ie)) = some (⟨7, 6, 5, 4, 0x30, 2, 1, 0xFF⟩, 0x04, 0x30, true) := by decide
/-- V53: the ninth pop has no cell. -/
theorem test_iret_at_f7 : look (step { set .r7 0xF7 (start 0 [0x13]) with ie := false })
    (fun t => (t.run, t.reg .r7, t.ie, t.pc)) = some (.faulted ⟨.memRange 0xFF, 0x00⟩, 0xFF, false, 0x00) := by decide

/-- V56: zero is no instruction. -/
theorem test_unknown_opcode : look (step (start 0 [])) (fun t => (t.run, t.pc)) =
    some (.faulted ⟨.unknownOpcode 0x00, 0x00⟩, 0x00) := by decide
/-- V60. -/
theorem test_fetch_at_ff : look (step (start 0xFF [])) (fun t => (t.run, t.pc)) =
    some (.faulted ⟨.memRange 0xFF, 0xFF⟩, 0xFF) := by decide
/-- V62: the second operand has no cell. -/
theorem test_operand_b_missing : look (step (start 0xFD [0x82, 0x00])) (fun t => t.run) =
    some (.faulted ⟨.memRange 0xFF, 0xFD⟩) := by decide
/-- 95_test_vectors.md 2.7, order of detection: an unknown opcode in the last cell is UnknownOpcode. -/
theorem test_unknown_before_operands : look (step (start 0xFE [0xC0])) (fun t => t.run) =
    some (.faulted ⟨.unknownOpcode 0xC0, 0xFE⟩) := by decide

/-- V72, V74: a tick sets bit 0 of R6. -/
theorem test_timer_tick : (timerCheck 1000000000 State.reset).reg .r6 = 0x01 ∧
    (timerCheck 999999999 State.reset).reg .r6 = 0x00 := by decide
/-- V73: tick and entry in the same cycle; line 0 is pending after the tick. -/
theorem test_tick_makes_line_0_pending :
    pendingLine (timerCheck 1000000000 (set .r5 0x01 State.reset)) = some 0 := by decide
/-- V65. -/
theorem test_entry : look (cycleAfterTimer (put 0xF8 [0x11] { State.reset with
    regs := ⟨0xF8, 0x11, 0x0F, 0, 0, 0x01, 0x01, 0xF4⟩, pc := 0x0F }))
    (fun t => (t.regs, t.pc, t.ie, (List.range 9).map fun k => t.byteAt (0xEB + k))) =
    some (⟨0xF8, 0x11, 0x0F, 0, 0, 0x01, 0x00, 0xEB⟩, 0x11, false,
      [0xF8, 0x11, 0x0F, 0x00, 0x00, 0x01, 0x00, 0x00, 0x0F]) := by decide
/-- V68: the lowest line first. -/
theorem test_entry_lowest_line : look (cycleAfterTimer (put 0xF9 [0x30, 0, 0x40] (set .r6 0x0A (set .r5 0xFF State.reset))))
    (fun t => (t.reg .r6, t.pc)) = some (0x08, 0x30) := by decide
/-- V69: line 7 faults at the vector read. -/
theorem test_entry_line_7 : look (cycleAfterTimer (set .r6 0x80 (set .r5 0x80 State.reset)))
    (fun t => (t.run, t.reg .r6, t.reg .r7, t.ie, t.pc)) =
    some (.faulted ⟨.memRange 0xFF, 0x00⟩, 0x00, 0xEB, false, 0x00) := by decide
/-- V70: eight pushes, and the ninth has no cell. -/
theorem test_entry_without_room : look (cycleAfterTimer (set .r7 0x08 (set .r6 0x01 (set .r5 0x01 State.reset))))
    (fun t => (t.run, t.reg .r7)) = some (.faulted ⟨.memRange 0xFF, 0x00⟩, 0xFF) := by decide
/-- V66, V67: masked, or disabled, and the instruction runs. -/
theorem test_masked_runs_instruction : look (cycleAfterTimer (set .r6 0x01 (start 0 [0x01]))) (fun t => t.run) =
    some .halted := by decide
theorem test_disabled_runs_instruction :
    look (cycleAfterTimer { set .r6 0x01 (set .r5 0x01 (start 0 [0x01])) with ie := false }) (fun t => t.run) =
    some .halted := by decide
/-- The bytes a program image is loaded at (program P1: LDI R0,8; HLT). -/
theorem test_launch : (launch [0x82, 0x00, 0x08, 0x01]).map (fun s => (s.byteAt 0, s.byteAt 3, s.byteAt 4)) =
    some (0x82, 0x01, 0x00) := by decide

/-! ### Witnesses: a concrete state and operands that meet the hypotheses of each statement -/

theorem witness_DecodeEncodeAgree : decode [0x47, 0x03, 0xAA] = .ok (.prn 3, [0xAA]) := by decide

theorem witness_UnknownOpcodeEndsTheRun : (start 0xFE [0xC0]).run = .running ∧
    pendingLine (afterTimer (start 0xFE [0xC0])) = none ∧ (start 0xFE [0xC0]).pc ≠ 0xFF ∧
    lookupOp ((start 0xFE [0xC0]).byteAt (start 0xFE [0xC0]).pc.toNat) = none ∧
    ∃ t, step (start 0xFE [0xC0]) = .next t := ⟨by decide, by decide, by decide, by decide, _, rfl⟩

theorem witness_ThreeOperandOpcodesAreUnknown : opcodeNops 0xC0 = 3 ∧ opcodeNops 0xFF = 3 ∧
    (start 0 [0xFF]).pc ≠ 0xFF ∧ opcodeNops ((start 0 [0xFF]).byteAt (start 0 [0xFF]).pc.toNat) = 3 ∧
    (start 0 [0xFF]).run = .running ∧ pendingLine (afterTimer (start 0 [0xFF])) = none := by decide

theorem witness_StepRunsDecodedInstruction : (start 0xFC [0x82, 0x00, 0x07]).run = .running ∧
    pendingLine (afterTimer (start 0xFC [0x82, 0x00, 0x07])) = none ∧
    decode (fetchWindow (start 0xFC [0x82, 0x00, 0x07])) = .ok (.ldi 0 7, []) := by decide

theorem witness_FetchedInstructionIsTheBytesAtPc : fetchInstr (start 0xFC [0x82, 0x00, 0x07]) = .ok (.ldi 0 7) ∧
    fetchInstr (start 0xFD [0x82, 0x00]) = .error (.memRange 0xFF) := by decide

/-- The four clauses of `FetchFaultOrder`, each at the edge of memory. -/
theorem witness_FetchFaultOrder_no_cell : (start 0xFF []).pc = 0xFF := by decide
theorem witness_FetchFaultOrder_unknown : (start 0xFE [0xC0]).pc ≠ 0xFF ∧
    lookupOp ((start 0xFE [0xC0]).byteAt (start 0xFE [0xC0]).pc.toNat) = none := by decide
theorem witness_FetchFaultOrder_operand : (start 0xFD [0x82]).pc ≠ 0xFF ∧
    lookupOp ((start 0xFD [0x82]).byteAt (start 0xFD [0x82]).pc.toNat) = some .ldi ∧
    255 ≤ (start 0xFD [0x82]).pc.toNat + Op.ldi.nops := by decide
theorem witness_FetchFaultOrder_instruction : (start 0xFC [0x82]).pc ≠ 0xFF ∧
    lookupOp ((start 0xFC [0x82]).byteAt (start 0xFC [0x82]).pc.toNat) = some .ldi ∧
    (start 0xFC [0x82]).pc.toNat + Op.ldi.nops < 255 := by decide

theorem witness_FetchFaultEndsTheRun : (start 0xFF []).run = .running ∧ pendingLine (afterTimer (start 0xFF [])) = none ∧
    fetchInstr (start 0xFF []) = .error (.memRange 0xFF) := by decide

theorem witness_TerminalStatesExecuteNothing : (State.reset.setRun .halted).run = .halted ∧
    (State.reset.raise (.unknownOpcode 0)).run = .faulted ⟨.unknownOpcode 0, 0⟩ := by decide

theorem witness_RunningStatesHaveASuccessor : State.reset.run = .running := by decide

theorem witness_TimerEventSetsStatusBitZero : State.reset.run = .running ∧ timerDue 1000000000 State.reset = true ∧
    timerDue 999999999 State.reset = false ∧ Reg.r5 ≠ Reg.r6 := by decide

theorem witness_TimerPeriodRestartsAtTheEvent : timerDue 1000000000 State.reset = true ∧
    timerDue 999999999 State.reset = false ∧
    timerDue 2000000000 (timerCheck 1000000000 State.reset) = true ∧
    timerDue 1999999999 (timerCheck 1000000000 State.reset) = false := by decide

/-- A state with lines 2 and 7 pending and unmasked, whatever the timer does. -/
def twoLines : State := set .r6 0x84 (set .r5 0x84 State.reset)

/-- Bits 1 to 7 of R5 AND R6 are the same after the timer check as before it. -/
theorem pending_bits_afterTimer (s : State) (n : Fin 8) (h : (s.reg .r5).getLsbD 0 = false) :
    ((afterTimer s).reg .r5 &&& (afterTimer s).reg .r6).getLsbD n = (s.reg .r5 &&& s.reg .r6).getLsbD n := by
  unfold afterTimer timerCheck
  cases timerDue (Config.wallClock s.cycle) s
  · rfl
  · show (s.reg .r5 &&& (s.reg .r6 ||| 1#8)).getLsbD n = _
    rw [BitVec.getLsbD_and, BitVec.getLsbD_and, BitVec.getLsbD_or]
    obtain ⟨n, hn⟩ := n
    cases n with
    | zero => simp only [h, Bool.false_and]
    | succ k => rw [show (1#8).getLsbD (k + 1) = false by simp, Bool.or_false]

theorem witness_InterruptCheckChoosesLowestLine_instruction : State.reset.run = .running ∧
    (afterTimer State.reset).reg .r5 &&& (afterTimer State.reset).reg .r6 = 0 ∧
    (afterTimer { twoLines with ie := false }).ie = false := ⟨rfl, BitVec.zero_and, rfl⟩
theorem witness_InterruptCheckChoosesLowestLine_entry : twoLines.run = .running ∧ (afterTimer twoLines).ie = true ∧
    ((afterTimer twoLines).reg .r5 &&& (afterTimer twoLines).reg .r6).getLsbD (2 : Fin 8) = true ∧
    ∀ m : Fin 8, m < 2 → ((afterTimer twoLines).reg .r5 &&& (afterTimer twoLines).reg .r6).getLsbD m = false :=
  ⟨rfl, rfl, pending_bits_afterTimer twoLines 2 rfl, fun m hm => by
    rw [pending_bits_afterTimer twoLines m rfl]; revert m; decide⟩

theorem witness_PendingLineIsLowestUnmasked : pendingLine twoLines = some 2 ∧ pendingLine State.reset = none := by decide

theorem witness_InterruptEntrySavesFrame : (0 : Fin 8).val ≤ 6 ∧ (6 : Fin 8).val ≤ 6 ∧
    9 ≤ ((set .r7 0x09 State.reset).reg .r7).toNat ∧ 9 ≤ ((set .r7 0xFF State.reset).reg .r7).toNat := by decide
theorem witness_LineSevenFaults : 9 ≤ ((set .r7 0x09 State.reset).reg .r7).toNat := by decide
theorem witness_EntryWithoutRoomFaults : ((set .r7 0x08 State.reset).reg .r7).toNat < 9 ∧
    ((set .r7 0x00 State.reset).reg .r7).toNat < 9 ∧ 1 ≤ ((set .r7 0x08 State.reset).reg .r7).toNat := by decide

theorem witness_OnlyIretEnablesInterrupts_disabled : ({ start 0 [0x01] with ie := false } : State).run = .running ∧
    ({ start 0 [0x01] with ie := false } : State).ie = false := by decide
theorem witness_OnlyIretEnablesInterrupts_entry : ∃ t, (interruptEntry 6 State.reset).outcome = .next t := ⟨_, rfl⟩
theorem witness_OnlyIretEnablesInterrupts_iret : ({ start 0 [0x13] with ie := false } : State).ie = false ∧
    ∃ t, step { start 0 [0x13] with ie := false } = .next t ∧ t.ie = true := ⟨rfl, _, rfl, rfl⟩

theorem witness_EntryThenReturnPermutesRegisters : (6 : Fin 8).val ≤ 6 ∧
    9 ≤ ((set .r7 0x09 State.reset).reg .r7).toNat := by decide

/-- The operand bytes of the register forms: the ends of both ranges. -/
theorem witness_register_operands : regOfByte 0 = some .r0 ∧ regOfByte 7 = some .r7 ∧
    8 ≤ (0x08 : Byte).toNat ∧ 8 ≤ (0xFF : Byte).toNat ∧ (0x07 : Byte).toNat < 8 := by decide

theorem witness_LdiLoadsLiteral : regOfByte 7 = some .r7 ∧ 8 ≤ (0x08 : Byte).toNat := by decide
theorem witness_PrnAppendsNumber : regOfByte 7 = some .r7 ∧ 8 ≤ (0x08 : Byte).toNat := by decide
theorem witness_PraAppendsCharacter : regOfByte 7 = some .r7 ∧ 8 ≤ (0x08 : Byte).toNat := by decide
theorem witness_AddWrapsModulo256 : regOfByte 0 = some .r0 ∧ regOfByte 7 = some .r7 ∧ 8 ≤ (0x08 : Byte).toNat ∧
    (0x07 : Byte).toNat < 8 := by decide
theorem witness_SubWrapsModulo256 : regOfByte 0 = some .r0 ∧ regOfByte 7 = some .r7 ∧ 8 ≤ (0x08 : Byte).toNat ∧
    (0x07 : Byte).toNat < 8 := by decide
theorem witness_MulKeepsLowByte : regOfByte 0 = some .r0 ∧ regOfByte 7 = some .r7 ∧ 8 ≤ (0x08 : Byte).toNat ∧
    (0x07 : Byte).toNat < 8 := by decide
theorem witness_PushStoresBelowStackPointer : regOfByte 7 = some .r7 ∧ (set .r7 0x01 State.reset).reg .r7 ≠ 0 ∧
    (set .r7 0x00 State.reset).reg .r7 = 0 ∧ 8 ≤ (0x08 : Byte).toNat := by decide
theorem witness_PopReadsAtStackPointer : regOfByte 6 = some .r6 ∧ Reg.r6 ≠ Reg.r7 ∧ regOfByte 7 = some .r7 ∧
    (set .r7 0xFE State.reset).reg .r7 ≠ 0xFF ∧ (set .r7 0xFF State.reset).reg .r7 = 0xFF ∧
    8 ≤ (0x08 : Byte).toNat := by decide
theorem witness_CallPushesReturnAddress : regOfByte 4 = some .r4 ∧ regOfByte 7 = some .r7 ∧
    (set .r7 0x01 State.reset).reg .r7 ≠ 0 ∧ (set .r7 0x00 State.reset).reg .r7 = 0 ∧ 8 ≤ (0x08 : Byte).toNat := by decide
theorem witness_RetJumpsToPoppedByte : (set .r7 0xFE State.reset).reg .r7 ≠ 0xFF ∧
    (set .r7 0xFF State.reset).reg .r7 = 0xFF := by decide
theorem witness_StStoresToAddressRegister : regOfByte 3 = some .r3 ∧ regOfByte 2 = some .r2 ∧
    (set .r3 0xFE State.reset).reg .r3 ≠ 0xFF ∧ (set .r3 0xFF State.reset).reg .r3 = 0xFF ∧
    8 ≤ (0x08 : Byte).toNat ∧ (0x07 : Byte).toNat < 8 := by decide
theorem witness_JmpGoesToRegister : regOfByte 2 = some .r2 ∧ (set .r2 0xFF State.reset).reg .r2 = 0xFF ∧
    8 ≤ (0x08 : Byte).toNat := by decide
theorem witness_CmpReplacesFlags : regOfByte 0 = some .r0 ∧ regOfByte 1 = some .r1 ∧
    (State.reset.reg .r0).toNat = (State.reset.reg .r1).toNat ∧
    ((set .r0 0x01 State.reset).reg .r1).toNat < ((set .r0 0x01 State.reset).reg .r0).toNat ∧
    ((set .r1 0x80 State.reset).reg .r0).toNat < ((set .r1 0x80 State.reset).reg .r1).toNat ∧
    8 ≤ (0x08 : Byte).toNat ∧ (0x07 : Byte).toNat < 8 := by decide
theorem witness_JeqBranchesOnEqualBit : regOfByte 3 = some .r3 ∧ (State.reset.setFl 0x01).fl.getLsbD 0 = true ∧
    (State.reset.setFl 0xFE).fl.getLsbD 0 = false ∧ 8 ≤ (0x08 : Byte).toNat := by decide
theorem witness_JneBranchesOnClearEqualBit : regOfByte 3 = some .r3 ∧ (State.reset.setFl 0xFE).fl.getLsbD 0 = false ∧
    (State.reset.setFl 0x01).fl.getLsbD 0 = true ∧ 8 ≤ (0x08 : Byte).toNat := by decide
theorem witness_IretPopsNineBytes : ((set .r7 0xF6 State.reset).reg .r7).toNat < 0xF7 ∧
    0xF7 ≤ ((set .r7 0xF7 State.reset).reg .r7).toNat ∧ 0xF7 ≤ ((set .r7 0xFF State.reset).reg .r7).toNat := by decide

theorem witness_RegisterOperandsAreChecked :
    (Instr.add 0x09 0x08).regOperands.find? (fun y => decide (8 ≤ y.toNat)) = some 0x09 ∧
    (Instr.add 0x07 0x08).regOperands.find? (fun y => decide (8 ≤ y.toNat)) = some 0x08 ∧
    (Instr.ldi 0x08 0x05).regOperands.find? (fun y => decide (8 ≤ y.toNat)) = some 0x08 := by decide

theorem witness_WellFormedFaultsOnlyOnMemory : (Instr.push 0).wellFormed = true ∧
    (set .r7 0x00 State.reset).isFaulted = false ∧
    ∃ t r, exec (.push 0) (set .r7 0x00 State.reset) = .next t ∧ t.run = .faulted r := ⟨rfl, rfl, _, _, rfl, rfl⟩

theorem witness_RegisterInstructionsFrame : (Instr.add 0 1).op ∈
    [Op.hlt, .ldi, .prn, .pra, .mul, .add, .sub, .jmp, .cmp, .jeq, .jne] ∧ Reg.r1 ∉ destRegs (.add 0 1) ∧
    ∃ t, exec (.add 0 1) State.reset = .next t := ⟨by decide, by decide, _, rfl⟩

/-- A storing instruction that stores, one that stores nothing because its operand is no register, and one whose store
has no cell. -/
theorem witness_StoringInstructionsFrame : (Instr.push 0).op ∈ [Op.push, .call, .st] ∧ Reg.r0 ∉ destRegs (.push 0) ∧
    storedAt (.push 0) State.reset = some 0xF3 ∧ storedAt (.push 8) State.reset = none ∧
    storedAt (.push 0) (set .r7 0 State.reset) = some 0xFF ∧
    ∃ t, exec (.push 0) State.reset = .next t := ⟨by decide, by decide, by decide, by decide, by decide, _, rfl⟩

theorem witness_PoppingInstructionsFrame : (Instr.pop 0).op ∈ [Op.pop, .ret, .iret] ∧ Reg.r1 ∉ destRegs (.pop 0) ∧
    ∃ t, exec (.pop 0) State.reset = .next t := ⟨by decide, by decide, _, rfl⟩

theorem witness_MemReadOfMissingCellFaults : 255 ≤ (0xFF : Byte).toNat ∧ (0xFE : Byte).toNat < 255 := by decide
theorem witness_MemWriteChangesOneCell : 255 ≤ (0xFF : Byte).toNat ∧ (0xFE : Byte).toNat < 255 ∧
    (0xFD : Nat) ≠ (0xFE : Byte).toNat := by decide
theorem witness_PopReadsThenIncrements : Reg.r0 ≠ Reg.r7 ∧ (set .r7 0xFF State.reset).reg .r7 = 0xFF ∧
    (set .r7 0xFE State.reset).reg .r7 ≠ 0xFF ∧ (set .r7 0xFE State.reset).reg .r7 = 0xFE ∧ Reg.r1 ≠ Reg.r0 := by decide
theorem witness_PushThenPopRestores : regOfByte 7 = some .r7 ∧ (set .r7 0x01 State.reset).reg .r7 ≠ 0 := by decide
theorem witness_CallThenRetReturns : regOfByte 1 = some .r1 ∧ State.reset.reg .r7 ≠ 0 ∧
    ∃ t u : State, exec (.call 1) State.reset = .next t ∧ u.reg .r7 = t.reg .r7 ∧
      u.byteAt (t.reg .r7).toNat = t.byteAt (t.reg .r7).toNat := ⟨rfl, by decide, _, _, rfl, rfl, rfl⟩
theorem witness_LdiThenPrnPrintsLiteral : regOfByte 6 = some .r6 := by decide
theorem witness_StoreIsSeenByNextFetch : regOfByte 0 = some .r0 ∧ regOfByte 1 = some .r1 ∧
    (set .r0 0xFE State.reset).reg .r0 ≠ 0xFF ∧
    ∃ t u : State, exec (.st 0 1) (set .r0 0xFE State.reset) = .next t ∧ u.mem = t.mem ∧
      u.pc = (set .r0 0xFE State.reset).reg .r0 :=
  ⟨rfl, rfl, by decide, _, { State.reset with mem := [], pc := 0xFE }, rfl, rfl, rfl⟩

/-- The invariant holds of a state that has stored to memory and faulted, and a step leaves it. -/
theorem witness_StepKeepsTheInvariant : (put 0x10 [0x33] (start 0 [0x82, 0x00, 0x08])).Inv ∧
    ∃ t, step (put 0x10 [0x33] (start 0 [0x82, 0x00, 0x08])) = .next t := ⟨⟨by decide, trivial⟩, _, rfl⟩
theorem witness_LaunchedStatesHaveTheInvariant : ∃ s, launch [0x82, 0x00, 0x08, 0x01] = some s := ⟨_, rfl⟩
theorem witness_ResetValues : Reg.r0 ≠ Reg.r7 := by decide
theorem witness_LaunchPlacesTheImage : (List.replicate 255 (1 : Byte)).length ≤ 255 ∧
    255 < (List.replicate 256 (1 : Byte)).length ∧ (254 : Nat) < (List.replicate 255 (1 : Byte)).length := by
  rw [List.length_replicate, List.length_replicate]
  omega
theorem witness_HaltedOnlyByHlt : (start 0 [0x01]).run = .running ∧
    ∃ t, step (start 0 [0x01]) = .next t ∧ t.run = .halted := ⟨rfl, _, rfl, rfl⟩
theorem witness_OutputGrowsOnlyByPrnAndPra : ∃ t, step (start 0 [0x48, 0x01]) = .next t := ⟨_, rfl⟩
theorem witness_FlagsChangeOnlyByCmpAndIret :
    ∃ t, step (start 0 [0xA7, 0x00, 0x01]) = .next t ∧ t.fl ≠ (start 0 [0xA7, 0x00, 0x01]).fl := ⟨_, rfl, by decide⟩
theorem witness_FaultLeavesPcAndRecordsIt : ∃ t r, step (start 0 []) = .next t ∧ t.run = .faulted r := ⟨_, _, rfl, rfl⟩
/-- The clause on interrupt entry: the entry of line 2 without a cell for its first push. -/
theorem witness_FaultLeavesPcAndRecordsIt_entry : ∃ t r, step (set .r7 0 twoLines) = .next t ∧ t.run = .faulted r ∧
    pendingLine (afterTimer (set .r7 0 twoLines)) ≠ none := by
  have h : pendingLine (afterTimer (set .r7 0 twoLines)) = some 2 := by
    unfold afterTimer timerCheck
    cases timerDue (Config.wallClock (set .r7 0 twoLines).cycle) (set .r7 0 twoLines) <;> rfl
  rw [step_running rfl, cycle_interrupt h]
  exact ⟨_, _, rfl, rfl, by rw [h]; decide⟩
theorem witness_AluOpIsNeverRecorded : ∃ t r, step (start 0 []) = .next t ∧ t.run = .faulted r := ⟨_, _, rfl, rfl⟩
theorem witness_AdvanceNeverWraps : fetchInstr (start 0xFC [0x82, 0x00, 0x07]) = .ok (.ldi 0 7) ∧
    (Instr.ldi 0 7).op.pcset = false ∧
    ∃ t, exec (.ldi 0 7) (start 0xFC [0x82, 0x00, 0x07]) = .next t ∧ t.isFaulted = false :=
  ⟨by decide, by decide, _, rfl, rfl⟩

end Sys2Proof.Tests
end

section
/-! PROOFS. Memory access by itself (20_memory.md R52, R53): what a read and a write answer at an address without a cell
and at an address with one. -/

namespace Sys2Proof.Machine

/-! ### Which byte addresses have no cell -/

/-- 0xFF is the one byte that is not the address of a cell (20_memory.md R51). -/
theorem toNat_ge_memSize_iff (a : Byte) : 255 ≤ a.toNat ↔ a = 0xFF#8 := by
  rw [← addrExists_false_iff, addrExists, decide_eq_false_iff_not, not_lt, Config.memSize]

theorem ne_ff_of_toNat_lt {a : Byte} (h : a.toNat < 255) : a ≠ 0xFF#8 :=
  fun e => Nat.not_le.2 h ((toNat_ge_memSize_iff a).2 e)

/-! ### A read and a write, with and without a cell -/

theorem memRead_of_missing {a : Byte} (h : 255 ≤ a.toNat) (s : State) : memRead a s = .error (.memRange a) := by
  obtain rfl := (toNat_ge_memSize_iff a).1 h
  rw [memRead_eq, if_pos rfl]

theorem memRead_of_cell {a : Byte} (h : a.toNat < 255) (s : State) : memRead a s = .ok (s.byteAt a.toNat) := by
  rw [memRead_eq, if_neg (ne_ff_of_toNat_lt h)]

theorem memWrite_of_missing {a : Byte} (h : 255 ≤ a.toNat) (v : Byte) (s : State) :
    memWrite a v s = .raised (.memRange a) s := by
  obtain rfl := (toNat_ge_memSize_iff a).1 h
  rw [memWrite_eq, if_pos rfl]

theorem memWrite_of_cell {a : Byte} (h : a.toNat < 255) (v : Byte) (s : State) :
    memWrite a v s = .ok (s.setMem a.toNat v) := by
  rw [memWrite_eq, if_neg (ne_ff_of_toNat_lt h)]

/-- A read of the cell just written answers the byte written. -/
theorem memRead_setMem_same {a : Byte} (h : a.toNat < 255) (v : Byte) (s : State) :
    memRead a (s.setMem a.toNat v) = .ok v := by
  rw [memRead_of_cell h, State.setMem_byteAt, if_pos rfl]

theorem State.setMem_byteAt_of_ne (s : State) (v : Byte) {a k : Nat} (h : k ≠ a) :
    (s.setMem a v).byteAt k = s.byteAt k := by
  rw [State.setMem_byteAt, if_neg h]

/-! ### The obligations -/

/-- Settles O43, by whether the address has a cell. -/
theorem memReadOfMissingCellFaults : Obligations.MemReadOfMissingCellFaults :=
  fun _ s => ⟨fun h => memRead_of_missing h s, fun h => memRead_of_cell h s⟩

/-- Settles O44, with the state after the one cell is written: the read-back and the frame of memory are rules of
`setMem`, and every other field is one that `setMem` leaves as it is. -/
theorem memWriteChangesOneCell : Obligations.MemWriteChangesOneCell := by
  refine fun a v s => ⟨fun h => memWrite_of_missing h v s, fun h => ⟨s.setMem a.toNat v, memWrite_of_cell h v s, ?_⟩⟩
  exact ⟨memRead_setMem_same h v s, fun _ hk => s.setMem_byteAt_of_ne v hk, s.setMem_reg a.toNat v,
    rfl, rfl, rfl, rfl, rfl, rfl, rfl⟩

end Sys2Proof.Machine
end

section
/-! PROOFS. Steps 1 and 2 of the cycle (40_cycle.md R102, R103): what the timer check changes, and which line the interrupt
check chooses. -/

namespace Sys2Proof.Machine

/-! ### Which line the interrupt check chooses -/

/-- A line is pending and unmasked when its bit of `R5 AND R6` is set (60_exceptions.md R200). -/
theorem linePending_eq_getLsbD_and (s : State) (n : Fin 8) :
    linePending s n = (s.reg .r5 &&& s.reg .r6).getLsbD n :=
  BitVec.getLsbD_and.symm

/-- `R5 AND R6` is 0 exactly when no line is pending and unmasked. -/
theorem and_eq_zero_iff_linePending (s : State) :
    s.reg .r5 &&& s.reg .r6 = 0 ↔ ∀ n : Fin 8, linePending s n = false := by
  simp only [linePending_eq_getLsbD_and]
  constructor
  · intro h n
    rw [h]
    exact BitVec.getLsbD_zero
  · intro h
    exact BitVec.eq_of_getLsbD_eq fun k hk => (h ⟨k, hk⟩).trans BitVec.getLsbD_zero.symm

theorem mem_irqLines (n : Fin 8) : n ∈ irqLines := by
  revert n
  decide

theorem pendingLine_of_ie_true {s : State} (h : s.ie = true) :
    pendingLine s = irqLines.find? (linePending s) := by
  simp [pendingLine, h]

/-- No line is chosen exactly when IE is clear or no line is pending and unmasked. -/
theorem pendingLine_eq_none_iff (s : State) :
    pendingLine s = none ↔ s.ie = false ∨ s.reg .r5 &&& s.reg .r6 = 0 := by
  rw [and_eq_zero_iff_linePending]
  cases hie : s.ie with
  | false => simp [pendingLine_of_ie_false hie]
  | true => simp [pendingLine_of_ie_true hie, mem_irqLines]

/-- The converse of `pendingLine_some`: some line is chosen, and it lies neither below nor above the lowest one. -/
theorem pendingLine_eq_some {s : State} {n : Fin 8} (hie : s.ie = true) (hn : linePending s n = true)
    (hlow : ∀ m : Fin 8, m < n → linePending s m = false) : pendingLine s = some n := by
  cases hp : pendingLine s with
  | none =>
    rw [pendingLine_of_ie_true hie, List.find?_eq_none] at hp
    exact absurd hn (hp n (mem_irqLines n))
  | some k =>
    obtain ⟨-, hk, hlowk⟩ := pendingLine_some hp
    rcases lt_trichotomy k n with hlt | rfl | hgt
    · simp [hlow k hlt] at hk
    · rfl
    · simp [hlowk n hgt] at hn

/-! ### The obligations -/

/-- Settles O14, by the line that the state after the timer check chooses: none, or the lowest pending one. -/
theorem interruptCheckChoosesLowestLine : Obligations.InterruptCheckChoosesLowestLine := by
  intro s hrun
  simp only [← linePending_eq_getLsbD_and, step_running hrun]
  exact ⟨fun h => cycle_instruction ((pendingLine_eq_none_iff _).2 h),
    fun _ hie hn hlow => cycle_interrupt (pendingLine_eq_some hie hn hlow)⟩

/-- Settles O12: `step_running` says that the check runs in every cycle, and `timerCheck_reg` what it does to each
register; every other field is one that the check leaves as it is. -/
theorem timerEventSetsStatusBitZero : Obligations.TimerEventSetsStatusBitZero := by
  refine ⟨fun _ hrun => step_running hrun, fun now s => ⟨fun hdue => ?_, fun hnot => ?_, fun r hr => ?_,
    timerCheck_pc now s, timerCheck_fl now s, timerCheck_ie now s, timerCheck_run now s, timerCheck_mem now s,
    timerCheck_out now s⟩⟩
  · exact (timerCheck_reg now s .r6).trans (if_pos ⟨rfl, hdue⟩)
  · exact (timerCheck_reg now s .r6).trans (if_neg (by simp [hnot]))
  · exact (timerCheck_reg now s r).trans (if_neg fun h => hr h.1)

end Sys2Proof.Machine
end

section
/-! PROOFS. LDI and PRA (41_halt_load_output.md R121, R123): the effect on a register operand that names a register, and
the fault on one that does not. -/

namespace Sys2Proof.Machine

/-! ### The operand check and the advance of PC, as a handler meets them -/

/-- A register operand of 8 or more ends the run with RegRange and nothing else changed, whatever the handler would do
(40_cycle.md R108; 60_exceptions.md R190, R194). -/
theorem withReg_outcome_of_ge {x : Byte} (h : 8 ≤ x.toNat) (s : State) (k : Reg → Res) :
    (withReg x s k).outcome = .next { s with run := .faulted ⟨.regRange x, s.pc⟩ } := by
  rw [withReg_none ((regOfByte_none_iff x).2 h), Res.raised_outcome]
  rfl

/-- The advance as one addition: PC moves by the length of the instruction (30_encoding.md R83; 40_cycle.md R110). -/
theorem State.advance_eq (s : State) (n : Byte) : s.advance n = { s with pc := s.pc + (1 + n) } := by
  rw [State.advance, BitVec.add_assoc]
  rfl

/-! ### LDI and PRA with an operand that names a register -/

theorem execLdi_of_reg {a : Byte} {ra : Reg} (h : regOfByte a = some ra) (v : Byte) (s : State) :
    execLdi a v s = .next { s with regs := s.regs.set ra v, pc := s.pc + 3 } := by
  rw [execLdi, withReg_some h, Res.ok_outcome, State.advance_eq]
  rfl

theorem execPra_of_reg {a : Byte} {ra : Reg} (h : regOfByte a = some ra) (s : State) :
    execPra a s = .next { s with out := s.out ++ [⟨.pra, s.reg ra⟩], pc := s.pc + 2 } := by
  rw [execPra, withReg_some h, Res.ok_outcome, State.advance_eq]
  rfl

/-! ### The obligations -/

/-- Settles O22, by whether the operand names a register. -/
theorem ldiLoadsLiteral : Obligations.LdiLoadsLiteral :=
  fun _ v s => ⟨rfl, fun _ h => execLdi_of_reg h v s, fun h => withReg_outcome_of_ge h s _⟩

/-- Settles O24, by whether the operand names a register. -/
theorem praAppendsCharacter : Obligations.PraAppendsCharacter :=
  fun _ s => ⟨rfl, fun _ h => execPra_of_reg h s, fun h => withReg_outcome_of_ge h s _⟩

end Sys2Proof.Machine
end

section
/-! PROOFS. ADD, SUB and MUL (42_alu.md R130 to R133): the arithmetic meaning of an ALU operation, the effect of an ALU
instruction on two register operands, and the fault on an operand that names no register. -/

namespace Sys2Proof.Machine

/-! ### The check of two operands, as a handler meets it -/

/-- The first operand is checked first: whatever the second is, the fault names the first (40_cycle.md R108). -/
theorem withRegs_outcome_of_ge_left {x : Byte} (hx : 8 ≤ x.toNat) (y : Byte) (s : State) (k : Reg → Reg → Res) :
    (withRegs x y s k).outcome = .next { s with run := .faulted ⟨.regRange x, s.pc⟩ } :=
  withReg_outcome_of_ge hx s _

/-- The second operand is checked once the first has named a register (40_cycle.md R108). -/
theorem withRegs_outcome_of_ge_right {x y : Byte} (hx : x.toNat < 8) (hy : 8 ≤ y.toNat) (s : State)
    (k : Reg → Reg → Res) :
    (withRegs x y s k).outcome = .next { s with run := .faulted ⟨.regRange y, s.pc⟩ } := by
  obtain ⟨rx, hrx⟩ := regOfByte_isSome (decide_eq_true hx)
  rw [withRegs, withReg_some hrx]
  exact withReg_outcome_of_ge hy s _

/-! ### The ALU's results as arithmetic modulo 256 -/

theorem aluResult_add (x y : Byte) : aluResult .add x y = BitVec.ofNat 8 ((x.toNat + y.toNat) % 256) :=
  BitVec.eq_of_toNat_eq (by simp [aluResult])

/-- The difference is that of the integers, so that an underflow wraps (42_alu.md R132). -/
theorem aluResult_sub (x y : Byte) :
    aluResult .sub x y = BitVec.ofInt 8 ((x.toNat - y.toNat : Int) % 256) := by
  apply BitVec.eq_of_toNat_eq
  rw [aluResult, BitVec.toNat_sub, BitVec.toNat_ofInt]
  omega

theorem aluResult_mul (x y : Byte) : aluResult .mul x y = BitVec.ofNat 8 ((x.toNat * y.toNat) % 256) :=
  BitVec.eq_of_toNat_eq (by simp [aluResult])

/-! ### An ALU instruction with operands that name registers -/

/-- Both registers are read before the first is written, so the two may be one register (42_alu.md R130). -/
theorem aluInstr_of_regs {a b : Byte} {ra rb : Reg} (ha : regOfByte a = some ra) (hb : regOfByte b = some rb)
    (f : AluOp) (s : State) :
    aluInstr f a b s = .next { s with
      regs := s.regs.set ra (aluResult f (s.reg ra) (s.reg rb)), pc := s.pc + 3 } := by
  rw [aluInstr, withRegs_some ha hb, Res.ok_outcome, State.advance_eq]
  rfl

/-- Everything an ALU instruction does, by whether each operand names a register, with its result as any function that
`aluResult` is equal to (42_alu.md R130 to R133). -/
theorem aluInstr_effect {f : AluOp} {g : Byte → Byte → Byte} (hfg : ∀ x y, aluResult f x y = g x y) (a b : Byte)
    (s : State) :
    (∀ ra rb, regOfByte a = some ra → regOfByte b = some rb →
      aluInstr f a b s = .next { s with regs := s.regs.set ra (g (s.reg ra) (s.reg rb)), pc := s.pc + 3 }) ∧
    (8 ≤ a.toNat → aluInstr f a b s = .next { s with run := .faulted ⟨.regRange a, s.pc⟩ }) ∧
    (a.toNat < 8 → 8 ≤ b.toNat → aluInstr f a b s = .next { s with run := .faulted ⟨.regRange b, s.pc⟩ }) :=
  ⟨fun ra rb ha hb => hfg (s.reg ra) (s.reg rb) ▸ aluInstr_of_regs ha hb f s,
    fun ha => withRegs_outcome_of_ge_left ha b s _, fun ha hb => withRegs_outcome_of_ge_right ha hb s _⟩

/-! ### The obligations -/

/-- Settles O25: ADD is the ALU instruction whose result is the sum modulo 256. -/
theorem addWrapsModulo256 : Obligations.AddWrapsModulo256 :=
  fun a b s => ⟨rfl, aluInstr_effect aluResult_add a b s⟩

/-- Settles O26: SUB is the ALU instruction whose result is the difference modulo 256. -/
theorem subWrapsModulo256 : Obligations.SubWrapsModulo256 :=
  fun a b s => ⟨rfl, aluInstr_effect aluResult_sub a b s⟩

/-- Settles O27: MUL is the ALU instruction whose result is the low byte of the product. -/
theorem mulKeepsLowByte : Obligations.MulKeepsLowByte :=
  fun a b s => ⟨rfl, aluInstr_effect aluResult_mul a b s⟩

end Sys2Proof.Machine
end

section
/-! PROOFS. The pop and RET (43_stack_call.md R141, R145): what a pop answers at a stack pointer that names a cell and at
0xFF, which names none, and the jump through R4. -/

namespace Sys2Proof.Machine

/-! ### A pop, with and without a cell -/

theorem popReg_of_missing {s : State} (h : s.reg .r7 = 0xFF#8) (r : Reg) :
    popReg r s = .raised (.memRange 0xFF#8) s := by
  rw [popReg_eq, if_pos h]

/-- For a register other than R7 the increment is that of the old stack pointer (43_stack_call.md R141). -/
theorem popReg_of_cell {r : Reg} (hr : r ≠ .r7) {s : State} (h : s.reg .r7 ≠ 0xFF#8) :
    popReg r s = .ok ((s.setReg r (s.byteAt (s.reg .r7).toNat)).setReg .r7 (s.reg .r7 + 1#8)) := by
  rw [popReg_eq, if_neg h, if_neg hr]

/-! ### RET, with and without a cell to pop -/

theorem execRet_of_missing {s : State} (h : s.reg .r7 = 0xFF#8) :
    execRet s = .next { s with run := .faulted ⟨.memRange 0xFF, s.pc⟩ } := by
  rw [execRet, popReg_of_missing h, Res.raised_andThen, Res.raised_outcome]
  rfl

/-- R4 is read for the jump after the pop wrote it, and the increment of R7 leaves it alone. -/
theorem execRet_of_cell {s : State} (h : s.reg .r7 ≠ 0xFF#8) :
    execRet s = .next { s with
      regs := (s.regs.set .r4 (s.byteAt (s.reg .r7).toNat)).set .r7 (s.reg .r7 + 1)
      pc := s.byteAt (s.reg .r7).toNat } := by
  rw [execRet, popReg_of_cell (by decide) h, Res.ok_andThen, Res.ok_outcome]
  rfl

/-! ### The obligations -/

/-- Settles O31, by whether R7 names a cell. -/
theorem retJumpsToPoppedByte : Obligations.RetJumpsToPoppedByte :=
  ⟨rfl, fun _ => ⟨execRet_of_cell, execRet_of_missing⟩⟩

/-- Settles O45, by whether R7 names a cell; what a pop leaves unchanged is `popReg_same`. -/
theorem popReadsThenIncrements : Obligations.PopReadsThenIncrements := by
  refine fun r s hr => ⟨fun h => popReg_of_missing h r, fun h => ⟨_, popReg_of_cell hr h, ?_⟩⟩
  obtain ⟨hctl, hmem, hregs⟩ := popReg_same r s
  rw [popReg_of_cell hr h, Res.ok_state] at hctl hmem hregs
  refine ⟨?popped, ?incremented, ?last, hregs, hmem, hctl.pc, hctl.fl, hctl.ie, hctl.run, hctl.out, hctl.timerLast,
    hctl.cycle⟩
  case popped => simp [hr]
  case incremented => simp
  case last =>
    intro hfe
    simp [hfe]

end Sys2Proof.Machine
end

section
/-! PROOFS. ST (44_store.md R160): the store at the address in a register, and the fault at 0xFF, which is the address of
no cell. -/

namespace Sys2Proof.Machine

/-! ### ST with operands that name registers, with and without a cell -/

/-- Both registers are read and only memory is written, so the two may be one register (44_store.md R160). -/
theorem execSt_of_cell {a b : Byte} {ra rb : Reg} (ha : regOfByte a = some ra) (hb : regOfByte b = some rb) {s : State}
    (h : s.reg ra ≠ 0xFF#8) :
    execSt a b s = .next { s with
      mem := Memory.write s.mem (s.reg ra).toNat (s.reg rb), pc := s.pc + 3 } := by
  rw [execSt, withRegs_some ha hb, memWrite_eq, if_neg h, Res.ok_andThen, Res.ok_outcome, State.advance_eq]
  rfl

theorem execSt_of_missing {a b : Byte} {ra rb : Reg} (ha : regOfByte a = some ra) (hb : regOfByte b = some rb)
    {s : State} (h : s.reg ra = 0xFF#8) :
    execSt a b s = .next { s with run := .faulted ⟨.memRange 0xFF, s.pc⟩ } := by
  rw [execSt, withRegs_some ha hb, memWrite_eq, if_pos h, Res.raised_andThen, Res.raised_outcome]
  rfl

/-! ### The obligation -/

/-- Settles O32, by whether each operand names a register and whether the first register names a cell. -/
theorem stStoresToAddressRegister : Obligations.StStoresToAddressRegister :=
  fun _ b s => ⟨rfl, fun _ _ ha hb => execSt_of_cell ha hb, fun _ _ ha hb => execSt_of_missing ha hb,
    fun ha => withRegs_outcome_of_ge_left ha b s _, fun ha hb => withRegs_outcome_of_ge_right ha hb s _⟩

end Sys2Proof.Machine
end

section
/-! PROOFS. JMP (45_compare_jump.md R165): the jump to a register, and the fetch at 0xFF, which is the address of no
cell. -/

namespace Sys2Proof.Machine

/-! ### The fetch at 0xFF -/

/-- At 0xFF there is no cell, so there is no byte to fetch (20_memory.md R51; 30_encoding.md R80). -/
theorem fetchWindow_of_missing {s : State} (h : s.pc = 0xFF#8) : fetchWindow s = [] := by
  rw [fetchWindow, memWindow, h, memRead_of_missing (by decide)]

/-- The first missing byte is then the opcode byte itself (30_encoding.md R94). -/
theorem fetchInstr_of_missing {s : State} (h : s.pc = 0xFF#8) : fetchInstr s = .error (.memRange 0xFF#8) := by
  rw [fetchInstr, fetchWindow_of_missing h, h]
  rfl

/-! ### JMP with an operand that names a register -/

theorem execJmp_of_reg {a : Byte} {ra : Reg} (h : regOfByte a = some ra) (s : State) :
    execJmp a s = .next { s with pc := s.reg ra } := by
  rw [execJmp, withReg_some h, Res.ok_outcome]
  rfl

/-! ### The obligation -/

/-- Settles O33, by whether the operand names a register; the target 0xFF faults because no cell has that address. -/
theorem jmpGoesToRegister : Obligations.JmpGoesToRegister :=
  fun _ s => ⟨rfl, fun _ ha => ⟨execJmp_of_reg ha s, fun hff => fetchInstr_of_missing hff⟩,
    fun ha => withReg_outcome_of_ge ha s _⟩

end Sys2Proof.Machine
end

section
/-! PROOFS. IRET (46_iret.md R180): what a sequence of pops leaves in each register, also where it meets the missing
cell at 0xFF part-way, and the nine pops of the return from an interrupt. -/

namespace Sys2Proof.Machine

/-! ### A sequence of pops -/

/-- What register `q`, which held `v`, holds after the bytes from address `a` up are popped into the registers listed,
as far as they have cells. -/
def poppedInto (m : Memory) (q : Reg) : List Reg → Nat → Byte → Byte
  | [], _, v => v
  | r :: rs, a, v => poppedInto m q rs (a + 1) (if q = r ∧ a < 255 then Memory.read m a else v)

theorem poppedInto_of_missing (m : Memory) (q : Reg) (rs : List Reg) {a : Nat} (h : 255 ≤ a) (v : Byte) :
    poppedInto m q rs a v = v := by
  induction rs generalizing a with
  | nil => rfl
  | cons r rs ih => rw [poppedInto, if_neg fun hq => Nat.not_le.2 hq.2 h, ih (Nat.le_succ_of_le h)]

/-- A pop of a byte that has a cell, field by field. -/
theorem popReg_of_lt {r : Reg} (hr : r ≠ .r7) {s : State} (h : (s.reg .r7).toNat < 255) :
    ∃ t, popReg r s = .ok t ∧ (t.reg .r7).toNat = (s.reg .r7).toNat + 1 ∧ t.mem = s.mem ∧
      ∀ q : Reg, q ≠ .r7 → t.reg q = if q = r then s.byteAt (s.reg .r7).toNat else s.reg q := by
  refine ⟨_, popReg_of_cell hr (ne_ff_of_toNat_lt h), ?_, rfl, fun q hq => by simp [hq]⟩
  rw [State.setReg_reg, if_pos rfl]
  bv_omega

/-- Pops into registers other than R7: the first pop without a cell raises MemRange, R7 stops there at 0xFF, and every
other register holds what the pops before it left (43_stack_call.md R141; 60_exceptions.md R190, R197). -/
theorem popRegs_effect {rs : List Reg} (h7 : Reg.r7 ∉ rs) (s : State) :
    (popRegs rs s = if (s.reg .r7).toNat + rs.length ≤ 255 then .ok (popRegs rs s).state
      else .raised (.memRange 0xFF#8) (popRegs rs s).state) ∧
    ((popRegs rs s).state.reg .r7).toNat = min ((s.reg .r7).toNat + rs.length) 255 ∧
    ∀ q : Reg, q ≠ .r7 → (popRegs rs s).state.reg q = poppedInto s.mem q rs (s.reg .r7).toNat (s.reg q) := by
  induction rs generalizing s with
  | nil =>
    have hlt := (s.reg .r7).isLt
    refine ⟨?_, ?_, fun q _ => rfl⟩
    · exact (if_pos (Nat.le_of_lt_succ hlt)).symm
    · exact (Nat.min_eq_left (Nat.le_of_lt_succ hlt)).symm
  | cons r rs ih =>
    obtain ⟨hr, hrs⟩ := not_or.1 fun h => h7 (List.mem_cons.2 h)
    rcases Nat.lt_or_ge (s.reg .r7).toNat 255 with hlt | hge
    case inr =>
      have hff : s.reg .r7 = 0xFF#8 := (toNat_ge_memSize_iff _).1 hge
      have hpop : popRegs (r :: rs) s = .raised (.memRange 0xFF#8) s := by
        rw [popRegs, popReg_of_missing hff, Res.raised_andThen]
      rw [hpop, Res.raised_state, hff]
      refine ⟨?_, ?_, fun q _ => (poppedInto_of_missing s.mem q (r :: rs) (by decide) (s.reg q)).symm⟩
      · rw [if_neg (by simp)]
      · simp
    case inl =>
      obtain ⟨t, hpop, hsp, hmem, hreg⟩ := popReg_of_lt (Ne.symm hr) hlt
      rw [popRegs, hpop, Res.ok_andThen]
      have hlen : (s.reg .r7).toNat + (r :: rs).length = (t.reg .r7).toNat + rs.length := by
        rw [hsp, List.length_cons]; omega
      obtain ⟨hres, hr7, hregs⟩ := ih hrs t
      rw [hlen]
      refine ⟨hres, hr7, fun q hq => ?_⟩
      rw [hregs q hq, hsp, hmem, hreg q hq, poppedInto]
      simp only [hlt, and_true, State.byteAt]

theorem popRegs_concat (rs : List Reg) (r : Reg) (s : State) :
    popRegs (rs ++ [r]) s = (popRegs rs s).andThen (popReg r) := by
  induction rs generalizing s with
  | nil =>
    change (popReg r s).andThen .ok = popReg r s
    cases popReg r s <;> rfl
  | cons q rs ih => rw [List.cons_append, popRegs, popRegs, Res.andThen_assoc, funext ih]

/-! ### The nine pops of the return -/

/-- The registers of the first eight pops: the register block, then R4 with the byte for FL (46_iret.md R180). -/
def returnRegs : List Reg := frameRegs ++ [.r4]

theorem interruptReturn_eq (s : State) :
    interruptReturn s = (popRegs returnRegs s).andThen fun t =>
      (popReg .r4 (t.setFl (t.reg .r4))).andThen fun u => .ok ((u.setPc (u.reg .r4)).setIe true) := by
  rw [returnRegs, popRegs_concat, ← Res.andThen_assoc]
  rfl

/-- The state that the first eight pops leave, also if one of them raises. -/
def afterEightPops (s : State) : State := (popRegs returnRegs s).state

theorem afterEightPops_same (s : State) : SameControl s (afterEightPops s) ∧ (afterEightPops s).mem = s.mem :=
  popRegs_same returnRegs s

theorem afterEightPops_reg (s : State) {q : Reg} (hq : q ≠ .r7) :
    (afterEightPops s).reg q = poppedInto s.mem q returnRegs (s.reg .r7).toNat (s.reg q) :=
  (popRegs_effect (by decide) s).2.2 q hq

theorem afterEightPops_sp (s : State) :
    ((afterEightPops s).reg .r7).toNat = min ((s.reg .r7).toNat + 8) 255 :=
  (popRegs_effect (by decide) s).2.1

theorem popRegs_returnRegs_of_cells {s : State} (h : (s.reg .r7).toNat ≤ 0xF7) :
    popRegs returnRegs s = .ok (afterEightPops s) :=
  (popRegs_effect (by decide) s).1.trans (if_pos (Nat.add_le_add_right h 8))

theorem popRegs_returnRegs_of_missing {s : State} (h : 0xF7 < (s.reg .r7).toNat) :
    popRegs returnRegs s = .raised (.memRange 0xFF#8) (afterEightPops s) :=
  (popRegs_effect (by decide) s).1.trans (if_neg (Nat.not_le.2 (Nat.add_lt_add_right h 8)))

/-- Each register of the block but R4 is popped into once (46_iret.md R180). -/
theorem afterEightPops_block (s : State) :
    (afterEightPops s).reg .r6 =
      (if (s.reg .r7).toNat < 255 then s.byteAt (s.reg .r7).toNat else s.reg .r6) ∧
    (afterEightPops s).reg .r5 =
      (if (s.reg .r7).toNat + 1 < 255 then s.byteAt ((s.reg .r7).toNat + 1) else s.reg .r5) ∧
    (afterEightPops s).reg .r3 =
      (if (s.reg .r7).toNat + 3 < 255 then s.byteAt ((s.reg .r7).toNat + 3) else s.reg .r3) ∧
    (afterEightPops s).reg .r2 =
      (if (s.reg .r7).toNat + 4 < 255 then s.byteAt ((s.reg .r7).toNat + 4) else s.reg .r2) ∧
    (afterEightPops s).reg .r1 =
      (if (s.reg .r7).toNat + 5 < 255 then s.byteAt ((s.reg .r7).toNat + 5) else s.reg .r1) ∧
    (afterEightPops s).reg .r0 =
      (if (s.reg .r7).toNat + 6 < 255 then s.byteAt ((s.reg .r7).toNat + 6) else s.reg .r0) := by
  simp [afterEightPops_reg, returnRegs, frameRegs, poppedInto, State.byteAt]

/-- R4 is popped into twice, as a register of the block and with the byte for FL. -/
theorem afterEightPops_r4 (s : State) :
    (afterEightPops s).reg .r4 =
      if (s.reg .r7).toNat + 7 < 255 then s.byteAt ((s.reg .r7).toNat + 7)
      else if (s.reg .r7).toNat + 2 < 255 then s.byteAt ((s.reg .r7).toNat + 2) else s.reg .r4 := by
  simp [afterEightPops_reg, returnRegs, frameRegs, poppedInto, State.byteAt]

/-! ### The return with cells for all nine pops, and without -/

/-- With R7 below 0xF7 all nine bytes have cells. -/
theorem interruptReturn_of_cells {s : State} (h : (s.reg .r7).toNat < 0xF7) :
    interruptReturn s = .ok ((((((afterEightPops s).setFl (s.byteAt ((s.reg .r7).toNat + 7))).setReg .r4
      (s.byteAt ((s.reg .r7).toNat + 8))).setReg .r7 (s.reg .r7 + 9#8)).setPc
        (s.byteAt ((s.reg .r7).toNat + 8))).setIe true) := by
  have hcell : (s.reg .r7 + 8#8).toNat = (s.reg .r7).toNat + 8 := by bv_omega
  have hsp : (afterEightPops s).reg .r7 = s.reg .r7 + 8#8 := by
    apply BitVec.eq_of_toNat_eq
    rw [afterEightPops_sp, hcell]
    omega
  have hbyte : ∀ k, (afterEightPops s).byteAt k = s.byteAt k := fun k => by
    rw [State.byteAt, (afterEightPops_same s).2, State.byteAt]
  have hne : s.reg .r7 + 8#8 ≠ 0xFF#8 := ne_ff_of_toNat_lt (by omega)
  rw [interruptReturn_eq, popRegs_returnRegs_of_cells h.le, Res.ok_andThen, afterEightPops_r4, if_pos (by omega),
    popReg_of_cell (by decide) (by simpa [hsp] using hne), Res.ok_andThen]
  simp [hsp, hcell, hbyte, BitVec.add_assoc]

/-- With R7 at 0xF7 or above some pop has no cell, and FL holds the eighth byte if that has one. -/
theorem interruptReturn_of_missing {s : State} (h : 0xF7 ≤ (s.reg .r7).toNat) :
    interruptReturn s = .raised (.memRange 0xFF#8) ((afterEightPops s).setFl
      (if (s.reg .r7).toNat + 7 < 255 then s.byteAt ((s.reg .r7).toNat + 7) else s.fl)) := by
  rcases h.lt_or_eq with hlt | heq
  · rw [interruptReturn_eq, popRegs_returnRegs_of_missing hlt, Res.raised_andThen, if_neg (by omega),
      ← (afterEightPops_same s).1.fl]
    rfl
  · have hsp : (afterEightPops s).reg .r7 = 0xFF#8 :=
      (toNat_ge_memSize_iff _).1 (by rw [afterEightPops_sp, ← heq]; decide)
    rw [interruptReturn_eq, popRegs_returnRegs_of_cells heq.ge, Res.ok_andThen,
      popReg_of_missing ((State.setFl_reg _ _ _).trans hsp),
      Res.raised_andThen, afterEightPops_r4, if_pos (by omega), if_pos (by omega)]

/-! ### The obligation -/

/-- Settles O37, by whether all nine bytes have cells; the states after the return are those of
`interruptReturn_of_cells` and `interruptReturn_of_missing`. -/
theorem iretPopsNineBytes : Obligations.IretPopsNineBytes := by
  refine ⟨rfl, fun s h => ⟨_, congrArg Res.outcome (interruptReturn_of_cells h), ?_⟩,
    fun s h => ⟨_, congrArg Res.outcome (interruptReturn_of_missing h), ?_⟩⟩
  all_goals
    obtain ⟨hctl, hmem⟩ := afterEightPops_same s
    obtain ⟨h6, h5, h3, h2, h1, h0⟩ := afterEightPops_block s
  · rw [if_pos (by omega)] at h6 h5 h3 h2 h1 h0
    exact ⟨h6, h5, h3, h2, h1, h0, rfl, rfl, rfl, rfl, rfl, hctl.run, hmem, hctl.out, hctl.timerLast, hctl.cycle⟩
  · have hsp : (afterEightPops s).reg .r7 = 0xFF#8 :=
      (toNat_ge_memSize_iff _).1 (by rw [afterEightPops_sp]; omega)
    refine ⟨?_, hctl.pc, hctl.ie, hsp, hmem, hctl.out, hctl.timerLast, hctl.cycle, h6, h5, h3, h2, h1, h0, rfl,
      afterEightPops_r4 s⟩
    simp [hctl.pc]

end Sys2Proof.Machine
end

section
/-! PROOFS. The opcode table and the decoder (30_encoding.md R80 to R87, R94): which bytes are an instruction, and that
these are its encoding. -/

namespace Sys2Proof

/-! ### What the decoder reads after a row's opcode -/

theorem Op.nops_le_two (m : Op) : m.nops ≤ 2 := by
  cases m <;> decide

/-- A row with the bytes its operands need decodes to an instruction of that row with these operands, and leaves the bytes
after them (30_encoding.md R82, R83). -/
theorem decode_of_operands (m : Op) (bs : List Byte) (h : m.nops ≤ bs.length) :
    ∃ i : Instr, i.op = m ∧ i.operands = bs.take m.nops ∧ decode (m.opcode :: bs) = .ok (i, bs.drop m.nops) := by
  cases m with
  | hlt | ret | iret => exact ⟨_, rfl, rfl, decode_nops0 rfl bs⟩
  | prn | pra | push | pop | call | jmp | jeq | jne =>
    obtain ⟨a, rest, rfl⟩ := List.exists_cons_of_length_pos h
    exact ⟨_, rfl, rfl, decode_nops1 rfl a rest⟩
  | ldi | mul | add | sub | st | cmp =>
    match bs, h with
    | a :: b :: rest, _ => exact ⟨_, rfl, rfl, decode_nops2 rfl a b rest⟩

/-- An instruction is built again from its row and its operand bytes (30_encoding.md R82). -/
theorem Instr.build_op_operands (i : Instr) : i.op.build (i.operands.getD 0 0) (i.operands.getD 1 0) = i := by
  cases i <;> rfl

theorem Instr.eq_of_op_operands {i j : Instr} (hop : i.op = j.op) (h : i.operands = j.operands) : i = j := by
  rw [← i.build_op_operands, hop, h, j.build_op_operands]

/-- The bytes that decode to an instruction are its encoding, with any bytes after it (30_encoding.md R80, R82). -/
theorem decode_eq_ok_iff (bs rest : List Byte) (i : Instr) : decode bs = .ok (i, rest) ↔ bs = encode i ++ rest := by
  constructor
  · intro h
    match bs with
    | [] => cases h
    | op :: tl =>
      cases hop : lookupOp op with
      | none =>
        rw [decode_unknown hop] at h
        cases h
      | some m =>
        obtain rfl := (lookupOp_some_iff op m).1 hop
        rcases Nat.lt_or_ge tl.length m.nops with hlt | hle
        · rw [decode_truncated m tl hlt] at h
          cases h
        · obtain ⟨j, rfl, hargs, hj⟩ := decode_of_operands m tl hle
          obtain ⟨rfl, rfl⟩ := Prod.mk.inj (Except.ok.inj (hj.symm.trans h))
          rw [encode, hargs, List.cons_append, List.take_append_drop]
  · rintro rfl
    obtain ⟨j, hop, hargs, hj⟩ := decode_of_operands i.op (i.operands ++ rest) (by simp [Instr.operands_length])
    rw [← Instr.operands_length, List.take_left] at hargs
    rw [← Instr.operands_length, List.drop_left, Instr.eq_of_op_operands hop hargs] at hj
    exact hj

/-! ### The obligations -/

/-- Settles O1: `decode_eq_ok_iff` in its two directions. -/
theorem decodeEncodeAgree : Obligations.DecodeEncodeAgree :=
  ⟨fun i rest => (decode_eq_ok_iff _ rest i).2 rfl, fun bs i rest => (decode_eq_ok_iff bs rest i).1⟩

/-- Settles O2, word by word: each is the encoding of its instruction with nothing after it. -/
theorem wordsOfTheSpecDecode : Obligations.WordsOfTheSpecDecode :=
  ⟨(decode_eq_ok_iff _ _ _).2 rfl, (decode_eq_ok_iff _ _ _).2 rfl, (decode_eq_ok_iff _ _ _).2 rfl,
    (decode_eq_ok_iff _ _ _).2 rfl, (decode_eq_ok_iff _ _ _).2 rfl, (decode_eq_ok_iff _ _ _).2 rfl⟩

/-- Settles O3: the columns by `opcodeNops_opcode` and `opcodePcset_opcode`, the lengths by `encode_length`. -/
theorem opcodeBitsAgreeWithTable : Obligations.OpcodeBitsAgreeWithTable := by
  refine ⟨rfl, by decide, fun m => ⟨m.mem_all, opcodeNops_opcode m, opcodePcset_opcode m⟩, fun i => ?_⟩
  rw [encode_length, opcodeNops_opcode]
  exact ⟨rfl, rfl⟩

end Sys2Proof
end

section
/-! PROOFS. The fetch (40_cycle.md R104 to R107; 30_encoding.md R80, R94): which bytes it looks at, which instruction or
fault it answers, and what the cycle does with either. -/

namespace Sys2Proof.Machine

/-! ### The bytes that a fetch looks at -/

/-- The bytes in the cells from an address up, as far as there are cells (20_memory.md R51, R52). -/
theorem memWindow_eq (s : State) (k : Nat) (a : Byte) :
    memWindow s k a = (List.range (min k (255 - a.toNat))).map fun j => s.byteAt (a.toNat + j) := by
  induction k generalizing a with
  | zero => simp [memWindow]
  | succ k ih =>
    rcases Nat.lt_or_ge a.toNat 255 with hlt | hge
    · have hnext : (a + 1).toNat = a.toNat + 1 := by bv_omega
      have hmin : min (k + 1) (255 - a.toNat) = min k (255 - (a.toNat + 1)) + 1 := by omega
      rw [memWindow, memRead_of_cell hlt, hmin, List.range_succ_eq_map, List.map_cons, List.map_map]
      simp only [ih, hnext, Function.comp_def, Nat.add_right_comm, Nat.add_assoc, Nat.add_zero, Nat.succ_eq_add_one]
    · simp [memWindow, memRead_of_missing hge, Nat.sub_eq_zero_of_le hge]

theorem fetchWindow_length (s : State) : (fetchWindow s).length = min 3 (255 - s.pc.toNat) := by
  simp [fetchWindow, memWindow_eq]

theorem fetchWindow_getElem (s : State) (k : Nat) (h : k < (fetchWindow s).length) :
    (fetchWindow s)[k] = s.byteAt (s.pc.toNat + k) := by
  simp [fetchWindow, memWindow_eq]

/-- With a cell at PC the byte there comes first. -/
theorem fetchWindow_of_cell {s : State} (h : s.pc ≠ 0xFF#8) :
    ∃ tl, fetchWindow s = s.byteAt s.pc.toNat :: tl ∧ tl.length = min 2 (254 - s.pc.toNat) := by
  have hpc : ¬ 255 ≤ s.pc.toNat := fun hge => h ((toNat_ge_memSize_iff _).1 hge)
  have hlen := fetchWindow_length s
  have hhead := fetchWindow_getElem s 0
  match hw : fetchWindow s with
  | [] => simp [hw] at hlen; omega
  | b :: tl =>
    simp only [hw, List.length_cons] at hlen hhead
    exact ⟨tl, by simpa using hhead, by omega⟩

/-! ### The instruction fetched -/

theorem fetchInstr_of_decode {s : State} {i : Instr} {rest : List Byte}
    (h : decode (fetchWindow s) = .ok (i, rest)) : fetchInstr s = .ok i := by
  simp [fetchInstr, h]

/-- An instruction is fetched when the bytes looked at begin with its encoding. -/
theorem fetchInstr_eq_ok_iff (s : State) (i : Instr) : fetchInstr s = .ok i ↔ encode i <+: fetchWindow s := by
  constructor
  · intro h
    unfold fetchInstr at h
    split at h
    · next j rest hdec =>
      cases h
      exact ⟨rest, ((decode_eq_ok_iff _ rest i).1 hdec).symm⟩
    · cases h
    · cases h
  · rintro ⟨rest, hrest⟩
    exact fetchInstr_of_decode ((decode_eq_ok_iff _ rest i).2 hrest.symm)

theorem encode_length_le_three (i : Instr) : (encode i).length ≤ 3 := by
  have := i.op.nops_le_two
  rw [encode_length, Instr.length]
  omega

/-! ### The faults of the fetch, in their order -/

theorem fetchInstr_of_unknown {s : State} (h : s.pc ≠ 0xFF#8) (hop : lookupOp (s.byteAt s.pc.toNat) = none) :
    fetchInstr s = .error (.unknownOpcode (s.byteAt s.pc.toNat)) := by
  obtain ⟨tl, hw, -⟩ := fetchWindow_of_cell h
  rw [fetchInstr, hw, decode_unknown hop]

theorem fetchInstr_of_row {s : State} {m : Op} (h : s.pc ≠ 0xFF#8) (hop : lookupOp (s.byteAt s.pc.toNat) = some m) :
    (255 ≤ s.pc.toNat + m.nops → fetchInstr s = .error (.memRange 0xFF#8)) ∧
      (s.pc.toNat + m.nops < 255 → ∃ i, fetchInstr s = .ok i ∧ i.op = m) := by
  obtain ⟨tl, hw, hlen⟩ := fetchWindow_of_cell h
  rw [(lookupOp_some_iff _ m).1 hop] at hw
  have hnops := m.nops_le_two
  have hpc : ¬ 255 ≤ s.pc.toNat := fun hge => h ((toNat_ge_memSize_iff _).1 hge)
  constructor
  · intro hge
    have hlast : s.pc + BitVec.ofNat 8 (m.opcode :: tl).length = 0xFF#8 := by
      rw [List.length_cons]
      bv_omega
    rw [fetchInstr, hw, decode_truncated m tl (by omega)]
    exact congrArg (fun a => Except.error (Cause.memRange a)) hlast
  · intro hlt
    obtain ⟨i, hi, -, hdec⟩ := decode_of_operands m tl (by omega)
    exact ⟨i, fetchInstr_of_decode (hw ▸ hdec), hi⟩

/-- Every fault of the fetch is one that the machine can record. -/
theorem fetchInstr_error_legal {s : State} {c : Cause} (h : fetchInstr s = .error c) : c.legal := by
  by_cases hpc : s.pc = 0xFF#8
  · cases (fetchInstr_of_missing hpc).symm.trans h
    rfl
  · cases hop : lookupOp (s.byteAt s.pc.toNat) with
    | none =>
      cases (fetchInstr_of_unknown hpc hop).symm.trans h
      exact hop
    | some m =>
      obtain ⟨hmissing, hcells⟩ := fetchInstr_of_row hpc hop
      rcases Nat.lt_or_ge (s.pc.toNat + m.nops) 255 with hlt | hge
      · obtain ⟨i, hi, -⟩ := hcells hlt
        cases hi.symm.trans h
      · cases (hmissing hge).symm.trans h
        rfl

/-! ### A cycle that enters no interrupt -/

theorem step_of_fetch_ok {s : State} {i : Instr} (hrun : s.run = .running) (hint : pendingLine (afterTimer s) = none)
    (h : fetchInstr s = .ok i) : step s = exec i (afterTimer s) := by
  rw [step_running hrun, cycle_instruction hint, fetchExecute_ok ((fetchInstr_afterTimer s).trans h)]

theorem step_of_fetch_error {s : State} {c : Cause} (hrun : s.run = .running)
    (hint : pendingLine (afterTimer s) = none) (h : fetchInstr s = .error c) :
    step s = .next { afterTimer s with run := .faulted ⟨c, s.pc⟩ } := by
  rw [step_running hrun, cycle_instruction hint, fetchExecute_error ((fetchInstr_afterTimer s).trans h)]
  rfl

/-! ### Which bytes are no opcode -/

theorem knownOpcodes_length :
    ((List.range 256).filter fun n => !(lookupOp (BitVec.ofNat 8 n)).isNone).length = 17 := by
  decide

theorem unknownOpcodes_length :
    ((List.range 256).filter fun n => (lookupOp (BitVec.ofNat 8 n)).isNone).length = 239 := by
  have hsplit := List.length_eq_length_filter_add (l := List.range 256)
    fun n => (lookupOp (BitVec.ofNat 8 n)).isNone
  rw [knownOpcodes_length, List.length_range] at hsplit
  omega

/-- No row has three operands (30_encoding.md R89). -/
theorem lookupOp_of_opcodeNops_three {op : Byte} (h : opcodeNops op = 3) : lookupOp op = none := by
  refine (lookupOp_none_iff op).2 fun m hm => ?_
  have hnops := m.nops_le_two
  rw [← opcodeNops_opcode, hm, h] at hnops
  omega

/-! ### The obligations -/

/-- Settles O7: what the bytes looked at begin with is what stands in memory from PC up, in cells that exist. -/
theorem fetchedInstructionIsTheBytesAtPc : Obligations.FetchedInstructionIsTheBytesAtPc := by
  intro s i
  have hlen := encode_length_le_three i
  rw [fetchInstr_eq_ok_iff, List.prefix_iff_getElem]
  simp only [fetchWindow_getElem, fetchWindow_length, exists_prop]
  exact and_congr (by omega) (forall₂_congr fun _ _ => eq_comm)

/-- Settles O8: the faults by `fetchInstr_of_missing`, `fetchInstr_of_unknown` and `fetchInstr_of_row`, in this order. -/
theorem fetchFaultOrder : Obligations.FetchFaultOrder :=
  fun _ => ⟨fetchInstr_of_missing, fetchInstr_of_unknown, fun _ hpc hop => (fetchInstr_of_row hpc hop).1,
    fun _ hpc hop => (fetchInstr_of_row hpc hop).2⟩

/-- Settles O4: the step by the fault of the fetch, after which RUN is FAULTED. -/
theorem unknownOpcodeEndsTheRun : Obligations.UnknownOpcodeEndsTheRun := by
  refine ⟨lookupOp_none_iff, unknownOpcodes_length, by decide, fun s hrun hint hpc hop => ?_⟩
  have hstep := step_of_fetch_error hrun hint (fetchInstr_of_unknown hpc hop)
  refine ⟨hstep, fun t ht u hu => ?_⟩
  cases hstep.symm.trans ht
  rw [step_faulted rfl] at hu
  cases hu

/-- Settles O5: such a byte is no row's opcode, so it is rejected before any operand is looked at. -/
theorem threeOperandOpcodesAreUnknown : Obligations.ThreeOperandOpcodesAreUnknown := by
  refine ⟨by decide, fun op rest h => decode_unknown (lookupOp_of_opcodeNops_three h) rest, fun s hpc h => ?_⟩
  have hfetch := fetchInstr_of_unknown hpc (lookupOp_of_opcodeNops_three h)
  exact ⟨hfetch, fun hrun hint => step_of_fetch_error hrun hint hfetch⟩

/-- Settles O6: the bytes looked at are the same after the timer check. -/
theorem stepRunsDecodedInstruction : Obligations.StepRunsDecodedInstruction :=
  fun _ _ _ hrun hint hdec => step_of_fetch_ok hrun hint (fetchInstr_of_decode hdec)

/-- Settles O9, by `step_of_fetch_error`. -/
theorem fetchFaultEndsTheRun : Obligations.FetchFaultEndsTheRun :=
  fun _ _ hrun hint h => step_of_fetch_error hrun hint h

/-- Settles O10, by the two terminal values of RUN. -/
theorem terminalStatesExecuteNothing : Obligations.TerminalStatesExecuteNothing :=
  ⟨fun _ => step_halted, fun _ _ => step_faulted⟩

end Sys2Proof.Machine
end

section
/-! PROOFS. HLT, PRN, CMP, JEQ and JNE (41_halt_load_output.md R120, R122; 45_compare_jump.md R166 to R168); what is
printed after LDI and fetched after ST; and the timer's period (60_exceptions.md R201). -/

namespace Sys2Proof.Machine

/-! ### The effect of each instruction on operands that name registers -/

theorem execHlt_eq (s : State) : execHlt s = .next { s with run := .halted, pc := s.pc + 1 } := by
  rw [execHlt, State.advance_eq]
  rfl

theorem execPrn_of_reg {a : Byte} {ra : Reg} (h : regOfByte a = some ra) (s : State) :
    execPrn a s = .next { s with out := s.out ++ [⟨.prn, s.reg ra⟩], pc := s.pc + 2 } := by
  rw [execPrn, withReg_some h, Res.ok_outcome, State.advance_eq]
  rfl

theorem execCmp_of_regs {a b : Byte} {ra rb : Reg} (ha : regOfByte a = some ra) (hb : regOfByte b = some rb)
    (s : State) :
    execCmp a b s = .next { s with fl := compareFlags (s.reg ra) (s.reg rb), pc := s.pc + 3 } := by
  rw [execCmp, withRegs_some ha hb, Res.ok_outcome, State.advance_eq]
  rfl

/-- A conditional jump that is taken goes to its register (45_compare_jump.md R167, R168). -/
theorem jumpIf_of_taken {a : Byte} {ra : Reg} (ha : regOfByte a = some ra) {s : State} {taken : Bool}
    (h : taken = true) :
    (withReg a s fun r => .ok (jumpIf taken (s.reg r) s)).outcome = .next { s with pc := s.reg ra } := by
  rw [withReg_some ha, h]
  rfl

/-- One that is not taken goes to the next instruction by itself. -/
theorem jumpIf_of_not_taken {a : Byte} {ra : Reg} (ha : regOfByte a = some ra) {s : State} {taken : Bool}
    (h : taken = false) :
    (withReg a s fun r => .ok (jumpIf taken (s.reg r) s)).outcome = .next { s with pc := s.pc + 2 } := by
  rw [withReg_some ha, h]
  rfl

/-! ### The three outcomes of a comparison, unsigned (45_compare_jump.md R166) -/

theorem compareFlags_of_eq {x y : Byte} (h : x.toNat = y.toNat) : compareFlags x y = 0x01 :=
  if_pos (BitVec.eq_of_toNat_eq h)

theorem compareFlags_of_gt {x y : Byte} (h : y.toNat < x.toNat) : compareFlags x y = 0x02 := by
  rw [compareFlags, if_neg (fun e => (e ▸ h).false), if_pos h]

theorem compareFlags_of_lt {x y : Byte} (h : x.toNat < y.toNat) : compareFlags x y = 0x04 := by
  rw [compareFlags, if_neg (fun e => (e ▸ h).false), if_neg h.not_gt]

/-! ### The obligations -/

/-- Settles O21: HLT is its two writes, and the step of a halted state is that state. -/
theorem hltHalts : Obligations.HltHalts :=
  ⟨rfl, fun s => ⟨execHlt_eq s, step_halted rfl⟩⟩

/-- Settles O23, by whether the operand names a register. -/
theorem prnAppendsNumber : Obligations.PrnAppendsNumber :=
  fun _ s => ⟨rfl, fun _ h => execPrn_of_reg h s, fun h => withReg_outcome_of_ge h s _⟩

/-- Settles O34, by whether each operand names a register and by the three outcomes of the comparison. -/
theorem cmpReplacesFlags : Obligations.CmpReplacesFlags := by
  refine fun a b s => ⟨rfl, fun ra rb ha hb => ?_, fun ha => withRegs_outcome_of_ge_left ha b s _,
    fun ha hb => withRegs_outcome_of_ge_right ha hb s _⟩
  have hexec : exec (.cmp a b) s = _ := execCmp_of_regs ha hb s
  rw [hexec]
  exact ⟨fun h => by rw [compareFlags_of_eq h], fun h => by rw [compareFlags_of_gt h],
    fun h => by rw [compareFlags_of_lt h]⟩

/-- Settles O35, by whether the operand names a register and by bit 0 of FL. -/
theorem jeqBranchesOnEqualBit : Obligations.JeqBranchesOnEqualBit :=
  fun _ s => ⟨rfl, fun _ ha => ⟨jumpIf_of_taken ha, jumpIf_of_not_taken ha⟩, fun ha => withReg_outcome_of_ge ha s _⟩

/-- Settles O36, by whether the operand names a register and by bit 0 of FL, negated. -/
theorem jneBranchesOnClearEqualBit : Obligations.JneBranchesOnClearEqualBit :=
  fun _ s => ⟨rfl, fun _ ha => ⟨fun h => jumpIf_of_taken ha (congrArg not h),
    fun h => jumpIf_of_not_taken ha (congrArg not h)⟩, fun ha => withReg_outcome_of_ge ha s _⟩

/-- Settles O48, by the effects of LDI and of PRN: the register holds the literal when PRN reads it. -/
theorem ldiThenPrnPrintsLiteral : Obligations.LdiThenPrnPrintsLiteral := by
  refine fun a v ra s h => ⟨_, _, execLdi_of_reg h v s, execPrn_of_reg h _, ?_⟩
  have hread : (s.setReg ra v).reg ra = v := by simp
  exact congrArg (fun x => s.out ++ [OutEvent.mk .prn x]) hread

/-- Settles O49: the cell at PC holds the byte that ST left there. -/
theorem storeIsSeenByNextFetch : Obligations.StoreIsSeenByNextFetch := by
  refine fun a b ra rb s ha hb hne => ⟨_, execSt_of_cell ha hb hne, fun u hmem hpc => ?_⟩
  obtain ⟨tl, hw, -⟩ := fetchWindow_of_cell (s := u) (hpc ▸ hne)
  rw [hw, List.head?_cons, State.byteAt, hmem, hpc, Memory.read_write, if_pos rfl]

/-- Settles O13, with the period of one second written out. -/
theorem timerPeriodRestartsAtTheEvent : Obligations.TimerPeriodRestartsAtTheEvent := by
  have hdue : ∀ now s, timerDue now s = true ↔ 1000000000 ≤ now - s.timerLast := fun _ _ => decide_eq_true_iff
  refine fun now later s => ⟨hdue now s, timerCheck_timerLast now s, fun h => ?_⟩
  rw [hdue, timerCheck_timerLast, if_pos h]
  omega

end Sys2Proof.Machine
end

section
/-! PROOFS. PUSH, POP and CALL (43_stack_call.md R142 to R144): each with and without a cell for its access, and what a
push or a call followed by its counterpart gives back. -/

namespace Sys2Proof.Machine

/-! ### The stack pointer of a push -/

/-- The decremented stack pointer names a cell unless the stack pointer was 0 (43_stack_call.md R140). -/
theorem sub_one_ne_ff {x : Byte} (h : x ≠ 0) : x - 1#8 ≠ 0xFF#8 := by bv_omega

theorem toNat_sub_one {x : Byte} (h : x ≠ 0) : (x - 1#8).toNat = x.toNat - 1 := by bv_omega

theorem push_of_cell {s : State} (h : s.reg .r7 ≠ 0) (v : Byte) :
    push v s = .ok ((s.setReg .r7 (s.reg .r7 - 1#8)).setMem ((s.reg .r7).toNat - 1) v) := by
  rw [push_eq, if_neg (sub_one_ne_ff h), toNat_sub_one h]

theorem push_of_missing {s : State} (h : s.reg .r7 = 0) (v : Byte) :
    push v s = .raised (.memRange 0xFF#8) (s.setReg .r7 0xFF#8) := by
  rw [push_eq, h]
  rfl

/-! ### PUSH -/

theorem execPush_of_cell {a : Byte} {ra : Reg} (ha : regOfByte a = some ra) {s : State} (h : s.reg .r7 ≠ 0) :
    execPush a s = .next { s with
      regs := s.regs.set .r7 (s.reg .r7 - 1)
      mem := Memory.write s.mem ((s.reg .r7).toNat - 1) (if ra = .r7 then s.reg .r7 - 1 else s.reg ra)
      pc := s.pc + 2 } := by
  rw [execPush, withReg_some ha, pushReg_eq, push_of_cell h, Res.ok_andThen, Res.ok_outcome, State.advance_eq]
  rfl

theorem execPush_of_missing {a : Byte} {ra : Reg} (ha : regOfByte a = some ra) {s : State} (h : s.reg .r7 = 0) :
    execPush a s = .next { s with regs := s.regs.set .r7 0xFF, run := .faulted ⟨.memRange 0xFF, s.pc⟩ } := by
  rw [execPush, withReg_some ha, pushReg_eq, push_of_missing h, Res.raised_andThen, Res.raised_outcome]
  rfl

/-- What a pop after PUSH finds: the value at the new stack pointer, with every register but R7 as before. -/
theorem execPush_leaves {a : Byte} {ra : Reg} (ha : regOfByte a = some ra) {s : State} (h : s.reg .r7 ≠ 0) :
    ∃ t, execPush a s = .next t ∧ t.reg .r7 = s.reg .r7 - 1#8 ∧
      t.byteAt (t.reg .r7).toNat = (if ra = .r7 then s.reg .r7 - 1#8 else s.reg ra) ∧
      (∀ q : Reg, q ≠ .r7 → t.reg q = s.reg q) ∧ t.pc = s.pc + 2 := by
  refine ⟨_, execPush_of_cell ha h, rfl, ?top, fun q hq => (Regs.get_set s.regs .r7 q _).trans (if_neg hq), rfl⟩
  change Memory.read (Memory.write s.mem _ _) (s.reg .r7 - 1#8).toNat = _
  rw [toNat_sub_one h, Memory.read_write, if_pos rfl]
  rfl

/-! ### POP -/

theorem execPop_of_cell {a : Byte} {ra : Reg} (ha : regOfByte a = some ra) (hra : ra ≠ .r7) {s : State}
    (h : s.reg .r7 ≠ 0xFF#8) :
    execPop a s = .next { s with
      regs := (s.regs.set ra (s.byteAt (s.reg .r7).toNat)).set .r7 (s.reg .r7 + 1), pc := s.pc + 2 } := by
  rw [execPop, withReg_some ha, popReg_of_cell hra h, Res.ok_andThen, Res.ok_outcome, State.advance_eq]
  rfl

/-- The increment of R7 comes after the write of the byte popped into it (43_stack_call.md R143). -/
theorem execPop_sp_of_cell {a : Byte} (ha : regOfByte a = some .r7) {s : State} (h : s.reg .r7 ≠ 0xFF#8) :
    execPop a s = .next { s with
      regs := s.regs.set .r7 (s.byteAt (s.reg .r7).toNat + 1), pc := s.pc + 2 } := by
  rw [execPop, withReg_some ha, popReg_eq, if_neg h, if_pos rfl, Res.ok_andThen, Res.ok_outcome, State.advance_eq]
  rfl

theorem execPop_of_missing {a : Byte} {ra : Reg} (ha : regOfByte a = some ra) {s : State} (h : s.reg .r7 = 0xFF#8) :
    execPop a s = .next { s with run := .faulted ⟨.memRange 0xFF, s.pc⟩ } := by
  rw [execPop, withReg_some ha, popReg_of_missing h, Res.raised_andThen, Res.raised_outcome]
  rfl

/-! ### CALL -/

/-- The target register is read after R4 and R7 were written (43_stack_call.md R144). -/
theorem execCall_of_cell {a : Byte} {ra : Reg} (ha : regOfByte a = some ra) {s : State} (h : s.reg .r7 ≠ 0) :
    execCall a s = .next { s with
      regs := (s.regs.set .r4 (s.pc + 2)).set .r7 (s.reg .r7 - 1)
      mem := Memory.write s.mem ((s.reg .r7).toNat - 1) (s.pc + 2)
      pc := if ra = .r4 then s.pc + 2 else if ra = .r7 then s.reg .r7 - 1 else s.reg ra } := by
  rw [execCall, withReg_some ha, pushViaTr_eq, push_of_cell (s := s.setReg .r4 (s.pc + 2)) h, Res.ok_andThen,
    Res.ok_outcome]
  cases ra <;> rfl

theorem execCall_of_missing {a : Byte} {ra : Reg} (ha : regOfByte a = some ra) {s : State} (h : s.reg .r7 = 0) :
    execCall a s = .next { s with
      regs := (s.regs.set .r4 (s.pc + 2)).set .r7 0xFF, run := .faulted ⟨.memRange 0xFF, s.pc⟩ } := by
  rw [execCall, withReg_some ha, pushViaTr_eq, push_of_missing (s := s.setReg .r4 (s.pc + 2)) h, Res.raised_andThen,
    Res.raised_outcome]
  rfl

/-! ### The obligations -/

/-- Settles O28, by whether the operand names a register and whether the push has a cell. -/
theorem pushStoresBelowStackPointer : Obligations.PushStoresBelowStackPointer :=
  fun _ s => ⟨rfl, fun _ ha => execPush_of_cell ha, fun _ ha => execPush_of_missing ha,
    fun ha => withReg_outcome_of_ge ha s _⟩

/-- Settles O29, by whether the operand names a register, whether that is R7, and whether R7 names a cell. -/
theorem popReadsAtStackPointer : Obligations.PopReadsAtStackPointer :=
  fun _ s => ⟨rfl, fun _ ha hra => execPop_of_cell ha hra, fun ha => execPop_sp_of_cell ha,
    fun _ ha => execPop_of_missing ha, fun ha => withReg_outcome_of_ge ha s _⟩

/-- Settles O30, by whether the operand names a register and whether the push has a cell. -/
theorem callPushesReturnAddress : Obligations.CallPushesReturnAddress :=
  fun _ s => ⟨rfl, fun _ ha => execCall_of_cell ha, fun _ ha => execCall_of_missing ha,
    fun ha => withReg_outcome_of_ge ha s _⟩

/-- Settles O46, by whether the register is R7: R7 gets back the decremented value that was pushed, plus 1. -/
theorem pushThenPopRestores : Obligations.PushThenPopRestores := by
  intro a ra s ha h
  obtain ⟨t, hpush, hsp, htop, hregs, hpc⟩ := execPush_leaves ha h
  have hcell : t.reg .r7 ≠ 0xFF#8 := hsp ▸ sub_one_ne_ff h
  have hpc4 : t.pc + 2 = s.pc + 4 := by
    rw [hpc, BitVec.add_assoc]
    rfl
  by_cases hra : ra = .r7
  · subst hra
    refine ⟨t, _, hpush, execPop_sp_of_cell ha hcell, fun q => ?_, rfl, hpc4⟩
    change (t.setReg .r7 (t.byteAt (t.reg .r7).toNat + 1)).reg q = s.reg q
    by_cases hq : q = .r7
    · simp [hq, htop]
    · simp [hq, hregs]
  · refine ⟨t, _, hpush, execPop_of_cell ha hra hcell, fun q => ?_, rfl, hpc4⟩
    change ((t.setReg ra (t.byteAt (t.reg .r7).toNat)).setReg .r7 (t.reg .r7 + 1)).reg q = s.reg q
    by_cases hq : q = .r7
    · simp [hq, hsp]
    · by_cases hqa : q = ra
      · simp [hqa, hra, htop]
      · simp [hq, hqa, hregs]

/-- Settles O47: the cell that RET pops is the one that CALL stored the return address in. -/
theorem callThenRetReturns : Obligations.CallThenRetReturns := by
  intro a ra s ha h
  refine ⟨_, execCall_of_cell ha h, fun u hsp hcell => ?_⟩
  have hr7 : u.reg .r7 = s.reg .r7 - 1#8 := hsp
  refine ⟨_, execRet_of_cell (hr7 ▸ sub_one_ne_ff h), ?pc, ?sp⟩
  case pc =>
    rw [← hsp] at hcell
    refine hcell.trans ?_
    rw [hr7, toNat_sub_one h, State.byteAt, Memory.read_write, if_pos rfl]
  case sp =>
    change ((u.setReg .r4 _).setReg .r7 (u.reg .r7 + 1)).reg .r7 = s.reg .r7
    simp [hr7]

end Sys2Proof.Machine
end

section
/-! PROOFS. Everything an instruction can do (40_cycle.md R108 to R110): what each leaves unchanged, how it completes, and
which faults it raises. -/

namespace Sys2Proof.Machine

/-! ### What is said of an instruction -/

/-- The instructions that access memory (20_memory.md R54). -/
def accessOps : List Op := [.push, .pop, .call, .ret, .st, .iret]

/-- What instruction `i`, started in `s`, leaves unchanged in `t`, whether it completes or not (10_state.md R24, R34, R35,
R44; 20_memory.md R54). PC and RUN are the matter of `Completes` and `Raises`. The default of each clause is that the
field is not written at all. -/
structure Leaves (i : Instr) (s t : State) : Prop where
  regs : ∀ q : Reg, q ∉ destRegs i → t.reg q = s.reg q := by intros; rfl
  fl : i.op ≠ .cmp → i.op ≠ .iret → t.fl = s.fl := by intros; rfl
  ie : i.op ≠ .iret → t.ie = s.ie := by intros; rfl
  out : i.op ≠ .prn → i.op ≠ .pra → t.out = s.out := by intros; rfl
  timerLast : t.timerLast = s.timerLast := by rfl
  cycle : t.cycle = s.cycle := by rfl
  bytes : ∀ a : Nat, (∀ x, storedAt i s = some x → a ≠ x.toNat) → t.byteAt a = s.byteAt a := by intros; rfl
  wf : Memory.wf s.mem = true → Memory.wf t.mem = true := by exact id

/-- RUN and PC in `t` after instruction `i`, started in `s`, has completed (40_cycle.md R110). -/
structure Completes (i : Instr) (s t : State) : Prop where
  run : t.run = if i.op = .hlt then .halted else s.run
  pc : i.op.pcset = false → t.pc = s.pc + 1 + BitVec.ofNat 8 i.op.nops

/-- The causes of fault that instruction `i` can raise (60_exceptions.md R193, R194, R196). -/
def Raises (i : Instr) (c : Cause) : Prop :=
  (∃ x ∈ i.regOperands, 8 ≤ x.toNat ∧ c = .regRange x) ∨ c = .memRange 0xFF#8 ∧ i.op ∈ accessOps

/-- The ways in which instruction `i`, started in `s`, can end. -/
def Ends (i : Instr) (s : State) : Res → Prop
  | .ok t => Leaves i s t ∧ Completes i s t
  | .raised c t => Leaves i s t ∧ Raises i c ∧ t.pc = s.pc

theorem Leaves.setPc {i : Instr} {s t : State} (h : Leaves i s t) (v : Byte) : Leaves i s (t.setPc v) :=
  ⟨h.regs, h.fl, h.ie, h.out, h.timerLast, h.cycle, h.bytes, h.wf⟩

theorem Leaves.raise {i : Instr} {s t : State} (h : Leaves i s t) (c : Cause) : Leaves i s (t.raise c) :=
  ⟨h.regs, h.fl, h.ie, h.out, h.timerLast, h.cycle, h.bytes, h.wf⟩

/-! ### The operand checks -/

theorem ends_withReg {i : Instr} {a : Byte} {s : State} {k : Reg → Res} (ha : a ∈ i.regOperands)
    (hk : ∀ ra, regOfByte a = some ra → Ends i s (k ra)) : Ends i s (withReg a s k) := by
  rcases withReg_cases a s k with ⟨hge, e⟩ | ⟨ra, hra, e⟩
  · rw [e]
    exact ⟨{}, .inl ⟨a, ha, hge, rfl⟩, rfl⟩
  · rw [e]
    exact hk ra hra

theorem ends_withRegs {i : Instr} {a b : Byte} {s : State} {k : Reg → Reg → Res} (hab : i.regOperands = [a, b])
    (hk : ∀ ra rb, regOfByte a = some ra → regOfByte b = some rb → Ends i s (k ra rb)) :
    Ends i s (withRegs a b s k) :=
  ends_withReg (by simp [hab]) fun ra hra => ends_withReg (by simp [hab]) fun rb => hk ra rb hra

/-! ### Instructions that write one register -/

theorem leaves_setReg {i : Instr} {a : Byte} {ra : Reg} (hdest : destRegs i = (regOfByte a).toList)
    (ha : regOfByte a = some ra) (s : State) (v : Byte) : Leaves i s (s.setReg ra v) where
  regs q hq := by
    rw [hdest, ha] at hq
    rw [State.setReg_reg, if_neg (by simpa using hq)]

/-! ### Accesses to memory -/

theorem State.byteAt_of_mem_eq {s t : State} (h : t.mem = s.mem) (a : Nat) : t.byteAt a = s.byteAt a :=
  congrArg (Memory.read · a) h

/-- What an access to memory as a part of instruction `i`, started in `s`, can do. -/
structure Access (i : Instr) (s : State) (r : Res) : Prop where
  cause : ∀ c t, r = .raised c t → c = .memRange 0xFF#8
  control : SameControl s r.state
  regs : ∀ q : Reg, q ∉ destRegs i → r.state.reg q = s.reg q
  bytes : ∀ a : Nat, (∀ x, storedAt i s = some x → a ≠ x.toNat) → r.state.byteAt a = s.byteAt a
  wf : Memory.wf s.mem = true → Memory.wf r.state.mem = true

theorem Access.leaves {i : Instr} {s : State} {r : Res} (h : Access i s r) : Leaves i s r.state :=
  ⟨h.regs, fun _ _ => h.control.fl, fun _ => h.control.ie, fun _ _ => h.control.out, h.control.timerLast,
    h.control.cycle, h.bytes, h.wf⟩

/-- An instruction that accesses memory once and then writes PC. -/
theorem Access.ends {i : Instr} {s : State} {r : Res} (h : Access i s r) (hop : i.op ∈ accessOps) {p : State → Byte}
    (hp : i.op.pcset = false → ∀ t, t.pc = s.pc → p t = s.pc + 1 + BitVec.ofNat 8 i.op.nops) :
    Ends i s (r.andThen fun t => .ok (t.setPc (p t))) := by
  have hhlt : i.op ≠ .hlt := ne_of_mem_of_not_mem hop (by decide)
  cases r with
  | ok t => exact ⟨h.leaves.setPc _, h.control.run.trans (if_neg hhlt).symm, fun hset => hp hset t h.control.pc⟩
  | raised c t => exact ⟨h.leaves, .inr ⟨h.cause c t rfl, hop⟩, h.control.pc⟩

/-- A push as a part of an instruction that stores there; CALL has written a register of its own before. -/
theorem access_push {i : Instr} {s u : State} (v : Byte) (hctl : SameControl s u) (hmem : u.mem = s.mem)
    (hsp : u.reg .r7 = s.reg .r7) (hregs : ∀ q : Reg, q ∉ destRegs i → u.reg q = s.reg q)
    (hdest : Reg.r7 ∈ destRegs i) (hstore : storedAt i s = some (s.reg .r7 - 1#8)) : Access i s (push v u) := by
  have hne : ∀ q : Reg, q ∉ destRegs i → q ≠ .r7 := fun q hq => (ne_of_mem_of_not_mem hdest hq).symm
  rw [push_eq, hsp]
  split
  · exact ⟨fun c t e => by cases e; rfl, hctl.trans ⟨rfl, rfl, rfl, rfl, rfl, rfl, rfl⟩,
      fun q hq => by simp [hne q hq, hregs q hq], fun a _ => State.byteAt_of_mem_eq hmem a,
      fun hwf => hmem ▸ hwf⟩
  · next hff =>
    refine ⟨nofun, hctl.trans ⟨rfl, rfl, rfl, rfl, rfl, rfl, rfl⟩,
      fun q hq => by simp [hne q hq, hregs q hq], fun a ha => ?_, fun hwf => ?_⟩
    · exact (State.setMem_byteAt_of_ne _ v (ha _ hstore)).trans (State.byteAt_of_mem_eq hmem a)
    · exact Memory.write_wf _ _ v (hmem ▸ hwf) ((addrExists_iff _).2 hff)

/-- A pop as a part of an instruction that writes the register popped into and R7. -/
theorem access_popReg {i : Instr} {r : Reg} (s : State) (hr : r ∈ destRegs i) (hsp : Reg.r7 ∈ destRegs i) :
    Access i s (popReg r s) := by
  obtain ⟨hctl, hmem, hregs⟩ := popReg_same r s
  refine ⟨fun c t e => ?_, hctl, fun q hq => hregs q (ne_of_mem_of_not_mem hr hq).symm
    (ne_of_mem_of_not_mem hsp hq).symm, fun a _ => State.byteAt_of_mem_eq hmem a, fun h => hmem ▸ h⟩
  rw [popReg_eq] at e
  split at e
  · cases e
    rfl
  · cases e

theorem access_st {a b : Byte} {ra rb : Reg} (ha : regOfByte a = some ra) (hb : regOfByte b = some rb) (s : State) :
    Access (.st a b) s (memWrite (s.reg ra) (s.reg rb) s) := by
  rw [memWrite_eq]
  split
  · exact ⟨fun c t e => by cases e; rfl, .refl s, fun _ _ => rfl, fun _ _ => rfl, id⟩
  · next hff =>
    refine ⟨nofun, ⟨rfl, rfl, rfl, rfl, rfl, rfl, rfl⟩, fun _ _ => rfl, fun k hk => ?_, fun hwf => ?_⟩
    · exact State.setMem_byteAt_of_ne s _ (hk _ (by rw [storedAt, ha, hb]; rfl))
    · exact Memory.write_wf _ _ _ hwf ((addrExists_iff _).2 hff)

/-- IRET reads memory nine times; it writes every register, FL and IE (46_iret.md R180). -/
theorem ends_interruptReturn (s : State) : Ends .iret s (interruptReturn s) := by
  obtain ⟨hmem, hrun, hout, htimer, hcycle⟩ := interruptReturn_same s
  have hleaves : Leaves .iret s (interruptReturn s).state :=
    { regs := fun q hq => absurd (by cases q <;> decide) hq
      fl := fun _ h => absurd rfl h
      ie := fun h => absurd rfl h
      out := fun _ _ => hout
      timerLast := htimer
      cycle := hcycle
      bytes := fun a _ => State.byteAt_of_mem_eq hmem a
      wf := fun h => hmem ▸ h }
  rcases Nat.lt_or_ge (s.reg .r7).toNat 0xF7 with hlt | hge
  · rw [interruptReturn_of_cells hlt] at hleaves hrun ⊢
    exact ⟨hleaves, hrun, fun h => by cases h⟩
  · rw [interruptReturn_of_missing hge] at hleaves ⊢
    exact ⟨hleaves, .inr ⟨rfl, by decide⟩, (afterEightPops_same s).1.pc⟩

/-! ### Everything an instruction can do -/

theorem ends_alu {i : Instr} {a b : Byte} (f : AluOp) (s : State) (hops : i.regOperands = [a, b])
    (hdest : destRegs i = (regOfByte a).toList) (hhlt : i.op ≠ .hlt) (hnops : i.op.nops = 2) :
    Ends i s (withRegs a b s fun ra rb => .ok ((aluApply f ra rb s).advance 2)) :=
  ends_withRegs hops fun ra rb ha _ =>
    ⟨(leaves_setReg hdest ha s _).setPc _, (if_neg hhlt).symm, fun _ => by rw [hnops]; rfl⟩

/-- Every instruction is a sequence that ends in one of the ways of `Ends`. -/
theorem exec_ends (i : Instr) (s : State) : ∃ r : Res, exec i s = r.outcome ∧ Ends i s r := by
  cases i with
  | hlt => exact ⟨.ok _, rfl, {}, rfl, fun _ => rfl⟩
  | ldi a imm =>
    exact ⟨_, rfl, ends_withReg (List.mem_singleton_self a) fun ra ha =>
      ⟨(leaves_setReg rfl ha s imm).setPc _, rfl, fun _ => rfl⟩⟩
  | prn a =>
    exact ⟨_, rfl, ends_withReg (List.mem_singleton_self a) fun ra _ =>
      ⟨{ out := fun h _ => absurd rfl h }, rfl, fun _ => rfl⟩⟩
  | pra a =>
    exact ⟨_, rfl, ends_withReg (List.mem_singleton_self a) fun ra _ =>
      ⟨{ out := fun _ h => absurd rfl h }, rfl, fun _ => rfl⟩⟩
  | mul a b => exact ⟨_, rfl, ends_alu .mul s rfl rfl nofun rfl⟩
  | add a b => exact ⟨_, rfl, ends_alu .add s rfl rfl nofun rfl⟩
  | sub a b => exact ⟨_, rfl, ends_alu .sub s rfl rfl nofun rfl⟩
  | push a =>
    refine ⟨_, rfl, ends_withReg (List.mem_singleton_self a) fun ra ha => Access.ends (i := .push a) ?_
      (by decide : Op.push ∈ accessOps) ?_⟩
    · rw [pushReg_eq]
      exact access_push _ (.refl s) rfl rfl (fun _ _ => rfl) (List.mem_singleton_self _)
        (by rw [storedAt, ha]; rfl)
    · exact fun _ t ht => by rw [ht]; rfl
  | pop a =>
    exact ⟨_, rfl, ends_withReg (List.mem_singleton_self a) fun ra ha =>
      (access_popReg (i := .pop a) s (by simp [destRegs, ha]) (by simp [destRegs])).ends
        (by decide : Op.pop ∈ accessOps) fun _ t ht => by rw [ht]; rfl⟩
  | call a =>
    refine ⟨_, rfl, ends_withReg (List.mem_singleton_self a) fun ra ha => Access.ends (i := .call a) ?_
      (by decide : Op.call ∈ accessOps) nofun⟩
    rw [pushViaTr_eq]
    exact access_push _ ⟨rfl, rfl, rfl, rfl, rfl, rfl, rfl⟩ rfl rfl (fun q hq => by simp_all [destRegs])
      (by simp [destRegs]) (by rw [storedAt, ha]; rfl)
  | ret => exact ⟨_, rfl, (access_popReg s (by decide) (by decide)).ends (by decide) nofun⟩
  | st a b =>
    exact ⟨_, rfl, ends_withRegs rfl fun ra rb ha hb =>
      (access_st ha hb s).ends (by decide : Op.st ∈ accessOps) fun _ t ht => by rw [ht]; rfl⟩
  | jmp a | jeq a | jne a =>
    exact ⟨_, rfl, ends_withReg (List.mem_singleton_self a) fun ra _ => ⟨{}, rfl, nofun⟩⟩
  | cmp a b =>
    exact ⟨_, rfl, ends_withRegs rfl fun ra rb _ _ => ⟨{ fl := fun h => absurd rfl h }, rfl, fun _ => rfl⟩⟩
  | iret => exact ⟨_, rfl, ends_interruptReturn s⟩

/-- The inversion of `exec`: the frame holds of the next state, and either the instruction completed or it ended the run
with a fault at an unchanged PC (60_exceptions.md R190, R197). -/
theorem exec_cases {i : Instr} {s t : State} (h : exec i s = .next t) :
    Leaves i s t ∧ (Completes i s t ∨ ∃ c, Raises i c ∧ t.run = .faulted ⟨c, s.pc⟩ ∧ t.pc = s.pc) := by
  obtain ⟨r, hr, hends⟩ := exec_ends i s
  rw [hr] at h
  cases r with
  | ok u =>
    cases h
    exact ⟨hends.1, .inl hends.2⟩
  | raised c u =>
    obtain ⟨hleaves, hraises, hpc⟩ := hends
    cases h
    exact ⟨hleaves.raise c, .inr ⟨c, hraises, by rw [State.raise_run, hpc], hpc⟩⟩

theorem Raises.legal {i : Instr} {c : Cause} (h : Raises i c) : c.legal := by
  rcases h with ⟨x, -, hx, rfl⟩ | ⟨rfl, -⟩
  · exact hx
  · rfl

end Sys2Proof.Machine
end

section
/-! PROOFS. The rules that hold of every instruction: the operand check (30_encoding.md R90; 40_cycle.md R108), the frames
(10_state.md R24, R34, R35, R44; 20_memory.md R54) and the advance of PC (40_cycle.md R110, R111). -/

namespace Sys2Proof.Machine

/-! ### The first register operand of 8 or more -/

theorem withReg_outcome_of_find {a x : Byte} (h : [a].find? (fun y => decide (8 ≤ y.toNat)) = some x) (s : State)
    (k : Reg → Res) : (withReg a s k).outcome = .next { s with run := .faulted ⟨.regRange x, s.pc⟩ } := by
  have hge : 8 ≤ x.toNat := by simpa using List.find?_some h
  obtain rfl : x = a := by simpa using List.mem_of_find?_eq_some h
  exact withReg_outcome_of_ge hge s k

theorem withRegs_outcome_of_find {a b x : Byte} (h : [a, b].find? (fun y => decide (8 ≤ y.toNat)) = some x)
    (s : State) (k : Reg → Reg → Res) :
    (withRegs a b s k).outcome = .next { s with run := .faulted ⟨.regRange x, s.pc⟩ } := by
  rcases Nat.lt_or_ge a.toNat 8 with hlt | hge
  · rw [List.find?_cons_of_neg (by simpa using hlt)] at h
    obtain ⟨ra, hra⟩ := regOfByte_isSome (decide_eq_true hlt)
    rw [withRegs, withReg_some hra]
    exact withReg_outcome_of_find h s _
  · rw [List.find?_cons_of_pos (by simpa using hge)] at h
    cases h
    exact withRegs_outcome_of_ge_left hge b s k

/-- Whatever the instruction, its register operands are checked before anything else (40_cycle.md R108). -/
theorem exec_of_bad_operand {i : Instr} {x : Byte} (h : i.regOperands.find? (fun y => decide (8 ≤ y.toNat)) = some x)
    (s : State) : exec i s = .next { s with run := .faulted ⟨.regRange x, s.pc⟩ } := by
  cases i with
  | hlt | ret | iret => cases h
  | ldi | prn | pra | push | pop | call | jmp | jeq | jne => exact withReg_outcome_of_find h s _
  | mul | add | sub | st | cmp => exact withRegs_outcome_of_find h s _

theorem wellFormed_iff (i : Instr) : i.wellFormed = true ↔ ∀ x ∈ i.regOperands, x.toNat < 8 := by
  simp [Instr.wellFormed, regOperandOk]

/-! ### The instructions that store nothing -/

theorem storedAt_eq_none {i : Instr} (h : i.op ∉ [.push, .call, .st]) (s : State) : storedAt i s = none := by
  cases i with
  | push | call | st => simp [Instr.op] at h
  | _ => rfl

theorem Leaves.byteAt {i : Instr} {s t : State} (h : Leaves i s t) (hop : i.op ∉ [.push, .call, .st]) (a : Nat) :
    t.byteAt a = s.byteAt a :=
  h.bytes a fun _ hx => nomatch (storedAt_eq_none hop s).symm.trans hx

/-! ### RUN after an instruction other than HLT -/

/-- RUN is unchanged, or records a fault at an unchanged PC (60_exceptions.md R197). -/
theorem exec_run {i : Instr} {s t : State} (h : exec i s = .next t) (hhlt : i.op ≠ .hlt) :
    t.run = s.run ∨ ∃ c, t.run = .faulted ⟨c, s.pc⟩ ∧ t.pc = s.pc := by
  rcases (exec_cases h).2 with hok | ⟨c, -, hrun, hpc⟩
  · exact .inl (hok.run.trans (if_neg hhlt))
  · exact .inr ⟨c, hrun, hpc⟩

theorem isFaulted_eq_false_iff (s : State) : s.isFaulted = false ↔ ∀ r, s.run ≠ .faulted r := by
  unfold State.isFaulted
  cases s.run <;> simp

/-! ### The obligations -/

/-- Settles O38: which bytes name a register by `regOfByte_none_iff` and `regOfByte_some_iff`, the fault by
`exec_of_bad_operand`. -/
theorem registerOperandsAreChecked : Obligations.RegisterOperandsAreChecked :=
  ⟨fun x => ⟨regOfByte_none_iff x, regOfByte_some_iff x⟩, wellFormed_iff, fun _ _ s h => exec_of_bad_operand h s⟩

/-- Settles O39: of the two causes that an instruction can raise, RegRange needs an operand of 8 or more. -/
theorem wellFormedFaultsOnlyOnMemory : Obligations.WellFormedFaultsOnlyOnMemory := by
  intro i s t r hwf hs hexec hrun
  rw [isFaulted_eq_false_iff] at hs
  rcases (exec_cases hexec).2 with hok | ⟨c, hraises, hfault, -⟩
  · rw [hok.run] at hrun
    split at hrun
    · cases hrun
    · exact absurd hrun (hs r)
  · cases hfault.symm.trans hrun
    rcases hraises with ⟨x, hx, hge, -⟩ | ⟨rfl, hop⟩
    · exact absurd ((wellFormed_iff i).1 hwf x hx) (Nat.not_lt.2 hge)
    · exact ⟨rfl, hop⟩

/-- Settles O40: the frame is that of every instruction, for one that is no IRET and stores nothing. -/
theorem registerInstructionsFrame : Obligations.RegisterInstructionsFrame := by
  intro i s t hop hexec
  have hleaves := (exec_cases hexec).1
  have hiret : i.op ≠ .iret := ne_of_mem_of_not_mem hop (by decide)
  have hstore : i.op ∉ [.push, .call, .st] := List.disjoint_left.1 (by simp) hop
  exact ⟨hleaves.regs, fun h => hleaves.fl h hiret, hleaves.ie hiret, hleaves.out, hleaves.timerLast, hleaves.cycle,
    exec_run hexec, hleaves.byteAt hstore⟩

/-- Settles O41: the frame is that of every instruction, for one that is none of HLT, CMP, PRN, PRA and IRET. -/
theorem storingInstructionsFrame : Obligations.StoringInstructionsFrame := by
  intro i s t hop hexec
  have hleaves := (exec_cases hexec).1
  have hne : ∀ m : Op, m ∉ [.push, .call, .st] → i.op ≠ m := fun m => ne_of_mem_of_not_mem hop
  refine ⟨hleaves.regs, hleaves.fl (hne .cmp (by decide)) (hne .iret (by decide)), hleaves.ie (hne .iret (by decide)),
    hleaves.out (hne .prn (by decide)) (hne .pra (by decide)), hleaves.timerLast, hleaves.cycle,
    exec_run hexec (hne .hlt (by decide)), fun x hx a ha => hleaves.bytes a fun y hy => ?_,
    fun hnone a => hleaves.bytes a fun y hy => nomatch hnone.symm.trans hy⟩
  cases hx.symm.trans hy
  exact ha

/-- Settles O42: the frame is that of every instruction, for one that is none of HLT, CMP, PRN and PRA and stores
nothing. -/
theorem poppingInstructionsFrame : Obligations.PoppingInstructionsFrame := by
  intro i s t hop hexec
  have hleaves := (exec_cases hexec).1
  have hne : ∀ m : Op, m ∉ [.pop, .ret, .iret] → i.op ≠ m := fun m => ne_of_mem_of_not_mem hop
  have hstore : i.op ∉ [.push, .call, .st] := List.disjoint_left.1 (by simp) hop
  exact ⟨hleaves.regs, fun hiret => ⟨hleaves.fl (hne .cmp (by decide)) hiret, hleaves.ie hiret⟩,
    hleaves.out (hne .prn (by decide)) (hne .pra (by decide)), hleaves.timerLast, hleaves.cycle,
    exec_run hexec (hne .hlt (by decide)), hleaves.byteAt hstore⟩

/-- Settles O59: the instruction lies below address 255, so the sum of its completion does not wrap. -/
theorem advanceNeverWraps : Obligations.AdvanceNeverWraps := by
  intro s t i hfetch hset hexec ht
  have hcells := ((fetchedInstructionIsTheBytesAtPc s i).1 hfetch).1
  rw [encode_length] at hcells
  rcases (exec_cases hexec).2 with hok | ⟨c, -, hrun, -⟩
  · rw [hok.pc hset, Instr.length]
    rw [Instr.length] at hcells
    bv_omega
  · exact absurd hrun ((isFaulted_eq_false_iff t).1 ht _)

/-! ### Every sequence has a next state -/

theorem Res.exists_outcome (r : Res) : ∃ t, r.outcome = .next t := by
  cases r <;> exact ⟨_, rfl⟩

/-- A cycle answers a next state, whether it enters an interrupt, runs an instruction or faults at the fetch. -/
theorem cycleAfterTimer_next (s : State) : ∃ t, cycleAfterTimer s = .next t := by
  cases hint : pendingLine s with
  | some n =>
    rw [cycle_interrupt hint]
    exact (interruptEntry n s).exists_outcome
  | none =>
    rw [cycle_instruction hint]
    cases hf : fetchInstr s with
    | ok i =>
      obtain ⟨r, hr, -⟩ := exec_ends i s
      rw [fetchExecute_ok hf, hr]
      exact r.exists_outcome
    | error c => exact ⟨_, fetchExecute_error hf⟩

/-- Settles O11, by the three values of RUN. -/
theorem runningStatesHaveASuccessor : Obligations.RunningStatesHaveASuccessor := by
  refine ⟨fun s hrun => step_running hrun ▸ cycleAfterTimer_next _, fun s r h => ?_⟩
  cases hrun : s.run with
  | running =>
    obtain ⟨t, ht⟩ := cycleAfterTimer_next (afterTimer s)
    rw [step_running hrun, ht] at h
    cases h
  | halted =>
    rw [step_halted hrun] at h
    cases h
  | faulted record =>
    rw [step_faulted hrun] at h
    cases h

end Sys2Proof.Machine
end

section
/-! PROOFS. Interrupt entry (60_exceptions.md R203 to R206, R212, R213): what a sequence of pushes leaves in memory, also
where it runs out of cells part-way, and the nine pushes of the frame. -/

namespace Sys2Proof.Machine

/-! ### A sequence of pushes -/

/-- The sequence `r`, started in `s`, pushes the bytes `vs`, as far as there are cells below the stack pointer: at address
0 the next push raises MemRange and leaves R7 = 0xFF (43_stack_call.md R140; 60_exceptions.md R212). -/
structure Pushes (vs : List Byte) (s : State) (r : Res) : Prop where
  ends : r = if vs.length ≤ (s.reg .r7).toNat then .ok r.state else .raised (.memRange 0xFF#8) r.state
  sp : (r.state.reg .r7).toNat = if vs.length ≤ (s.reg .r7).toNat then (s.reg .r7).toNat - vs.length else 255
  cells : ∀ (k : Nat) (h : k < vs.length), k < (s.reg .r7).toNat →
    r.state.byteAt ((s.reg .r7).toNat - (k + 1)) = vs[k]
  others : ∀ a : Nat, a < (s.reg .r7).toNat - vs.length ∨ (s.reg .r7).toNat ≤ a → r.state.byteAt a = s.byteAt a

theorem pushes_push (v : Byte) (s : State) : Pushes [v] s (push v s) := by
  by_cases h : s.reg .r7 = 0
  · rw [push_of_missing h]
    refine ⟨?_, ?_, fun k _ hk => ?_, fun _ _ => rfl⟩
    · simp [h]
    · simp [h]
    · simp [h] at hk
  · have hpos : 1 ≤ (s.reg .r7).toNat := by bv_omega
    rw [push_of_cell h]
    refine ⟨(if_pos hpos).symm, ?_, fun k hk _ => ?_, fun a ha => ?_⟩
    · simp [-BitVec.toNat_sub, toNat_sub_one h, hpos]
    · obtain rfl : k = 0 := by simpa using hk
      simp
    · rw [List.length_singleton] at ha
      rw [Res.ok_state, State.setMem_byteAt_of_ne _ _ (by omega), State.setReg_byteAt]

/-- A sequence that starts in a state with the same stack pointer and memory pushes the same bytes. -/
theorem Pushes.congr {vs : List Byte} {s u : State} {r : Res} (h : Pushes vs u r) (hsp : u.reg .r7 = s.reg .r7)
    (hmem : u.mem = s.mem) : Pushes vs s r := by
  obtain ⟨hends, hr7, hcells, hothers⟩ := h
  simp only [State.byteAt, hsp, hmem] at hends hr7 hcells hothers
  exact ⟨hends, hr7, hcells, hothers⟩

theorem Pushes.andThen {vs ws : List Byte} {s : State} {r : Res} {f : State → Res} (h : Pushes vs s r)
    (hf : ∀ t, r = .ok t → Pushes ws t (f t)) : Pushes (vs ++ ws) s (r.andThen f) := by
  obtain ⟨hends, hr7, hcells, hothers⟩ := h
  by_cases hroom : vs.length ≤ (s.reg .r7).toNat
  · rw [if_pos hroom] at hends hr7
    obtain ⟨hends', hr7', hcells', hothers'⟩ := hf r.state hends
    rw [hends, Res.ok_andThen]
    have hiff : ws.length ≤ (s.reg .r7).toNat - vs.length ↔ (vs ++ ws).length ≤ (s.reg .r7).toNat := by
      rw [List.length_append]
      omega
    simp only [hr7, hiff] at hends' hr7' hcells' hothers'
    refine ⟨hends', ?_, fun k hk hksp => ?_, fun a ha => ?_⟩
    · rw [hr7', List.length_append, Nat.sub_sub]
    · rw [List.length_append] at hk
      rcases Nat.lt_or_ge k vs.length with hlt | hge
      · rw [hothers' _ (.inr (by omega)), hcells k hlt hksp, List.getElem_append_left hlt]
      · have haddr : (s.reg .r7).toNat - (k + 1) = (s.reg .r7).toNat - vs.length - (k - vs.length + 1) := by omega
        rw [haddr, hcells' _ (by omega) (by omega), List.getElem_append_right hge]
    · rw [List.length_append] at ha
      rw [hothers' a (by omega), hothers a (by omega)]
  · rw [if_neg hroom] at hends hr7
    rw [hends, Res.raised_andThen]
    have hroom' : ¬ (vs ++ ws).length ≤ (s.reg .r7).toNat := by
      rw [List.length_append]
      omega
    refine ⟨(if_neg hroom').symm, hr7.trans (if_neg hroom').symm, fun k hk hksp => ?_, fun a ha => ?_⟩
    · rw [Res.raised_state, hcells k (by omega) hksp, List.getElem_append_left]
    · rw [Res.raised_state, hothers a (by omega)]

theorem pushes_pushReg {q : Reg} (hq : q ≠ .r7) (s : State) : Pushes [s.reg q] s (pushReg q s) := by
  rw [pushReg_eq, if_neg hq]
  exact pushes_push _ s

/-- A byte that is pushed through R4 (60_exceptions.md R204). -/
theorem pushes_pushViaTr (v : Byte) (s : State) : Pushes [v] s (pushViaTr v s) := by
  rw [pushViaTr_eq]
  exact (pushes_push v _).congr rfl rfl

/-- The registers that are pushed are not those that a push writes. -/
theorem pushes_pushRegs {rs : List Reg} (h7 : Reg.r7 ∉ rs) (s : State) : Pushes (rs.map s.reg) s (pushRegs rs s) := by
  induction rs generalizing s with
  | nil => exact ⟨rfl, rfl, fun _ hk => (nomatch hk), fun _ _ => rfl⟩
  | cons q rs ih =>
    obtain ⟨hq, hrs⟩ := not_or.1 fun h => h7 (List.mem_cons.2 h)
    refine (pushes_pushReg (Ne.symm hq) s).andThen (ws := rs.map s.reg) fun t ht => ?_
    have hregs : rs.map t.reg = rs.map s.reg := List.map_congr_left fun p hp => by
      have := (pushReg_same q s).2 p (ne_of_mem_of_not_mem hp hrs)
      rwa [ht] at this
    exact hregs ▸ ih hrs t

/-! ### The nine pushes of interrupt entry -/

/-- The first two pushes of interrupt entry, PC and FL through R4 (60_exceptions.md R204). -/
def savePcFl (n : Fin 8) (s : State) : Res :=
  (pushViaTr (acknowledge n s).pc (acknowledge n s)).andThen fun t => pushViaTr t.fl t

/-- Interrupt entry before its read of the vector. -/
def saveFrame (n : Fin 8) (s : State) : Res := (savePcFl n s).andThen (pushRegs frameRegs)

theorem interruptEntry_eq (n : Fin 8) (s : State) :
    interruptEntry n s = (saveFrame n s).andThen (loadVector n) := rfl

/-- The bytes of the frame, at descending addresses; FL stands there twice, since it is in R4 when R4 is pushed
(60_exceptions.md R204). -/
def frameBytes (n : Fin 8) (s : State) : List Byte :=
  [s.pc, s.fl] ++ [(acknowledge n s).reg .r6, s.reg .r5, s.fl, s.reg .r3, s.reg .r2, s.reg .r1, s.reg .r0]

theorem Res.andThen_eq_ok {r : Res} {f : State → Res} {t : State} (h : r.andThen f = .ok t) :
    ∃ u, r = .ok u ∧ f u = .ok t := by
  cases r with
  | ok u => exact ⟨u, rfl, h⟩
  | raised c u => cases h

/-- A push through R4 that has a cell leaves the byte in R4 and changes no other register but R7. -/
theorem pushViaTr_ok {v : Byte} {s t : State} (h : pushViaTr v s = .ok t) :
    t.fl = s.fl ∧ t.reg .r4 = v ∧ ∀ q : Reg, q ≠ .r4 → q ≠ .r7 → t.reg q = s.reg q := by
  obtain ⟨hctl, hregs⟩ := pushReg_same .r4 (s.setReg .r4 v)
  rw [pushViaTr] at h
  rw [h, Res.ok_state] at hctl hregs
  exact ⟨hctl.fl, (hregs .r4 (by decide)).trans (by simp), fun q h4 h7 => (hregs q h7).trans (by simp [h4])⟩

theorem savePcFl_ok {n : Fin 8} {s t : State} (h : savePcFl n s = .ok t) :
    t.reg .r4 = s.fl ∧ ∀ q : Reg, q ≠ .r4 → q ≠ .r7 → t.reg q = (acknowledge n s).reg q := by
  obtain ⟨u, hpc, hfl⟩ := Res.andThen_eq_ok h
  obtain ⟨hu, -, huregs⟩ := pushViaTr_ok hpc
  obtain ⟨-, h4, hregs⟩ := pushViaTr_ok hfl
  exact ⟨h4.trans hu, fun q hq4 hq7 => (hregs q hq4 hq7).trans (huregs q hq4 hq7)⟩

theorem pushes_savePcFl (n : Fin 8) (s : State) : Pushes [s.pc, s.fl] s (savePcFl n s) :=
  ((pushes_pushViaTr s.pc (acknowledge n s)).andThen (ws := [s.fl]) fun t ht =>
    (pushViaTr_ok ht).1 ▸ pushes_pushViaTr t.fl t).congr rfl rfl

theorem pushes_saveFrame (n : Fin 8) (s : State) : Pushes (frameBytes n s) s (saveFrame n s) := by
  refine (pushes_savePcFl n s).andThen fun t ht => ?_
  obtain ⟨h4, hregs⟩ := savePcFl_ok ht
  have hblock : frameRegs.map t.reg =
      [(acknowledge n s).reg .r6, s.reg .r5, s.fl, s.reg .r3, s.reg .r2, s.reg .r1, s.reg .r0] := by
    simp [frameRegs, h4, hregs, acknowledge_eq]
  exact hblock ▸ pushes_pushRegs (by decide) t

theorem saveFrame_r4 {n : Fin 8} {s t : State} (h : saveFrame n s = .ok t) : t.reg .r4 = s.fl := by
  obtain ⟨u, hu, hblock⟩ := Res.andThen_eq_ok h
  have hregs := (pushRegs_same frameRegs u).2 .r4 (by decide)
  rw [hblock] at hregs
  exact hregs.trans (savePcFl_ok hu).1

/-! ### Entry with room for the frame, and without -/

theorem saveFrame_of_room (n : Fin 8) {s : State} (h : 9 ≤ (s.reg .r7).toNat) :
    saveFrame n s = .ok (saveFrame n s).state :=
  (pushes_saveFrame n s).ends.trans (if_pos h)

theorem saveFrame_of_no_room (n : Fin 8) {s : State} (h : (s.reg .r7).toNat < 9) :
    saveFrame n s = .raised (.memRange 0xFF#8) (saveFrame n s).state :=
  (pushes_saveFrame n s).ends.trans (if_neg (Nat.not_le.2 h))

/-- The nine cells of the frame (60_exceptions.md R204; decision D17, log 15). -/
theorem saveFrame_cells (n : Fin 8) {s : State} (h : 9 ≤ (s.reg .r7).toNat) :
    (saveFrame n s).state.byteAt ((s.reg .r7).toNat - 1) = s.pc ∧
    (saveFrame n s).state.byteAt ((s.reg .r7).toNat - 2) = s.fl ∧
    (saveFrame n s).state.byteAt ((s.reg .r7).toNat - 3) = (acknowledge n s).reg .r6 ∧
    (saveFrame n s).state.byteAt ((s.reg .r7).toNat - 4) = s.reg .r5 ∧
    (saveFrame n s).state.byteAt ((s.reg .r7).toNat - 5) = s.fl ∧
    (saveFrame n s).state.byteAt ((s.reg .r7).toNat - 6) = s.reg .r3 ∧
    (saveFrame n s).state.byteAt ((s.reg .r7).toNat - 7) = s.reg .r2 ∧
    (saveFrame n s).state.byteAt ((s.reg .r7).toNat - 8) = s.reg .r1 ∧
    (saveFrame n s).state.byteAt ((s.reg .r7).toNat - 9) = s.reg .r0 := by
  have hcell : ∀ k (hk : k < 9), (saveFrame n s).state.byteAt ((s.reg .r7).toNat - (k + 1)) = (frameBytes n s)[k] :=
    fun k hk => (pushes_saveFrame n s).cells k hk (by omega)
  exact ⟨hcell 0 (by decide), hcell 1 (by decide), hcell 2 (by decide), hcell 3 (by decide), hcell 4 (by decide),
    hcell 5 (by decide), hcell 6 (by decide), hcell 7 (by decide), hcell 8 (by decide)⟩

theorem saveFrame_sp (n : Fin 8) {s : State} (h : 9 ≤ (s.reg .r7).toNat) :
    ((saveFrame n s).state.reg .r7).toNat = (s.reg .r7).toNat - 9 :=
  (pushes_saveFrame n s).sp.trans (if_pos h)

/-- The vectors of lines 0 to 6 have cells (60_exceptions.md R206). -/
theorem vectorAddr_toNat (n : Fin 8) : (vectorAddr n).toNat = 0xF8 + n.val := by
  revert n
  decide

theorem interruptEntry_of_room {n : Fin 8} {s : State} (hn : n.val ≤ 6) (h : 9 ≤ (s.reg .r7).toNat) :
    interruptEntry n s =
      .ok ((saveFrame n s).state.setPc ((saveFrame n s).state.byteAt (0xF8 + n.val))) := by
  have hne : vectorAddr n ≠ 0xFF#8 := ne_ff_of_toNat_lt (by rw [vectorAddr_toNat]; omega)
  rw [interruptEntry_eq, saveFrame_of_room n h, Res.ok_andThen, loadVector_eq, if_neg hne, vectorAddr_toNat,
    Res.ok_state]

/-- The vector of line 7 has none (60_exceptions.md R213; decision D2, log 2). -/
theorem interruptEntry_seven {s : State} (h : 9 ≤ (s.reg .r7).toNat) :
    interruptEntry 7 s = .raised (.memRange 0xFF#8) (saveFrame 7 s).state := by
  rw [interruptEntry_eq, saveFrame_of_room 7 h, Res.ok_andThen, loadVector_eq, if_pos (by decide), Res.ok_state]

theorem interruptEntry_of_no_room (n : Fin 8) {s : State} (h : (s.reg .r7).toNat < 9) :
    interruptEntry n s = .raised (.memRange 0xFF#8) (saveFrame n s).state := by
  rw [interruptEntry_eq, saveFrame_of_no_room n h, Res.raised_andThen, Res.raised_state]

/-! ### The status bit that entry clears -/

/-- However entry ends, R6 is as the acknowledgement left it. -/
theorem interruptEntry_r6 (n : Fin 8) (s : State) :
    (interruptEntry n s).state.reg .r6 = (acknowledge n s).reg .r6 :=
  interruptEntry_keeps (P := fun t => t.reg .r6 = (acknowledge n s).reg .r6) n s rfl
    (fun v t ht => (State.setReg_reg t .r4 v .r6).trans ht)
    (fun r t ht => ((pushReg_same r t).2 .r6 (by decide)).trans ht) fun _ _ ht => ht

theorem one_shiftLeft_getLsbD (n k : Fin 8) : (1#8 <<< n.val).getLsbD k = decide (k = n) := by
  revert n k
  decide

/-- The line's bit is cleared and every other bit kept (60_exceptions.md R204). -/
theorem acknowledge_r6_getLsbD (n k : Fin 8) (s : State) :
    ((acknowledge n s).reg .r6).getLsbD k = (decide (k ≠ n) && (s.reg .r6).getLsbD k) := by
  rw [acknowledge_eq, State.setReg_reg, if_pos rfl, BitVec.getLsbD_and, BitVec.getLsbD_not, one_shiftLeft_getLsbD]
  simp [Bool.and_comm]

theorem acknowledge_r6_getLsbD_self (n : Fin 8) (s : State) : ((acknowledge n s).reg .r6).getLsbD n = false := by
  rw [acknowledge_r6_getLsbD, decide_eq_false (not_not_intro rfl), Bool.false_and]

/-! ### The obligations -/

/-- Settles O15: the line chosen is the first of the lines 0 to 7 that is pending and unmasked. -/
theorem pendingLineIsLowestUnmasked : Obligations.PendingLineIsLowestUnmasked := by
  refine fun s => ⟨fun n => ⟨fun h => ?_, fun ⟨hie, hmask, hstatus, hlow⟩ => ?_⟩, pendingLine_eq_none_iff s⟩
  · obtain ⟨hie, hn, hlow⟩ := pendingLine_some h
    obtain ⟨hmask, hstatus⟩ := (Bool.and_eq_true _ _).mp hn
    exact ⟨hie, hmask, hstatus, hlow⟩
  · exact pendingLine_eq_some hie (by rw [linePending, hmask, hstatus, Bool.and_self]) hlow

/-- Settles O16: the frame by `pushes_saveFrame`, the rest by what entry leaves unchanged. -/
theorem interruptEntrySavesFrame : Obligations.InterruptEntrySavesFrame := by
  intro n s hn hroom
  have hentry := interruptEntry_of_room hn hroom
  have hsp := saveFrame_sp n hroom
  have hr4 := saveFrame_r4 (saveFrame_of_room n hroom)
  obtain ⟨hie, hfl, hrun, hout, htimer, hcycle, hregs⟩ := interruptEntry_same n s
  have hr6 := interruptEntry_r6 n s
  rw [hentry, Res.ok_state] at hie hfl hrun hout htimer hcycle hregs hr6
  obtain ⟨c1, c2, c3, c4, c5, c6, c7, c8, c9⟩ := saveFrame_cells n hroom
  refine ⟨_, hentry, congrArg Res.outcome hentry, c1, c2, c3.trans hr6.symm, c4, c5, c6, c7, c8, c9,
    (pushes_saveFrame n s).others, rfl, hie, hfl, ?sp, hr4,
    fun k => hr6 ▸ acknowledge_r6_getLsbD n k s, hregs .r0 (by decide) (by decide) (by decide),
    hregs .r1 (by decide) (by decide) (by decide), hregs .r2 (by decide) (by decide) (by decide),
    hregs .r3 (by decide) (by decide) (by decide), hregs .r5 (by decide) (by decide) (by decide), hrun, hout, htimer,
    hcycle⟩
  rw [State.setPc_reg]
  bv_omega

/-- Settles O17: the nine pushes are those of any line, and the read of the vector raises. -/
theorem lineSevenFaults : Obligations.LineSevenFaults := by
  intro s hroom
  have hentry := interruptEntry_seven hroom
  have hsp := saveFrame_sp 7 hroom
  have hpc := (interruptEntry_raised hentry).1
  have hie := (interruptEntry_same 7 s).1
  have hr6 := interruptEntry_r6 7 s
  rw [hentry, Res.raised_state] at hie hr6
  obtain ⟨c1, c2, c3, c4, c5, c6, c7, c8, c9⟩ := saveFrame_cells 7 hroom
  refine ⟨_, congrArg Res.outcome hentry, by rw [State.raise_run, hpc]; rfl, hpc, hie, ?sp,
    hr6 ▸ acknowledge_r6_getLsbD_self 7 s, c1, c2, c3.trans hr6.symm, c4, c5, c6, c7, c8, c9⟩
  rw [State.raise_reg]
  bv_omega

/-- Settles O18: the push that finds R7 at 0 raises and leaves R7 = 0xFF, and the first push, of PC, comes before it. -/
theorem entryWithoutRoomFaults : Obligations.EntryWithoutRoomFaults := by
  intro n s hroom
  have hentry := interruptEntry_of_no_room n hroom
  have hsp := (pushes_saveFrame n s).sp.trans (if_neg (Nat.not_le.2 hroom))
  have hpc := (interruptEntry_raised hentry).1
  obtain ⟨hie, hfl, -, hout, -, -, hregs⟩ := interruptEntry_same n s
  have hr6 := interruptEntry_r6 n s
  rw [hentry, Res.raised_state] at hie hfl hout hregs hr6
  exact ⟨_, congrArg Res.outcome hentry, by rw [State.raise_run, hpc]; rfl, hpc, hie, BitVec.eq_of_toNat_eq hsp,
    hr6 ▸ acknowledge_r6_getLsbD_self n s, hfl, hout, hregs .r0 (by decide) (by decide) (by decide),
    hregs .r1 (by decide) (by decide) (by decide), hregs .r2 (by decide) (by decide) (by decide),
    hregs .r3 (by decide) (by decide) (by decide), hregs .r5 (by decide) (by decide) (by decide),
    fun hpos => (pushes_saveFrame n s).cells 0 (Nat.succ_pos _) hpos⟩

/-- Settles O20: IRET pops the nine cells of the frame in the opposite order, into registers in the order in which they
were pushed. -/
theorem entryThenReturnPermutesRegisters : Obligations.EntryThenReturnPermutesRegisters := by
  intro n s hn hroom
  obtain ⟨t, hentry, -, c1, c2, c3, c4, c5, c6, c7, c8, c9, -, -, -, -, hsp, -, -, -, -, -, -, -, hrun, -⟩ :=
    interruptEntrySavesFrame n s hn hroom
  have hlt := (s.reg .r7).isLt
  have hsp9 : (t.reg .r7).toNat = (s.reg .r7).toNat - 9 := by bv_omega
  obtain ⟨u, hret, h6, h5, h3, h2, h1, h0, hfl, hpc, h4, h7, hie, hrun', hmem, -⟩ :=
    iretPopsNineBytes.2.1 t (by omega)
  have hcell : ∀ k, k ≤ 8 → (t.reg .r7).toNat + k = (s.reg .r7).toNat - (9 - k) := by omega
  rw [hsp9] at h6
  rw [hcell _ (by decide)] at h5 h3 h2 h1 h0 hfl hpc h4
  refine ⟨t, u, hentry, hret, h6.trans c9, h5.trans c8, h4.trans c1, h3.trans c6, h2.trans c5, h1.trans c4, h0.trans c3,
    ?sp, hfl.trans c2, hpc.trans c1, hie, hrun'.trans hrun, State.byteAt_of_mem_eq hmem⟩
  rw [h7, hsp]
  bv_omega

end Sys2Proof.Machine
end

section
/-! PROOFS. The rules of the whole machine (10_state.md R33 to R44; 60_exceptions.md R190 to R197; 70_reset_and_hazards.md
R230): what every step keeps, by what a cycle can do, and the state in which a run starts. -/

namespace Sys2Proof.Machine

/-! ### What holds of the next state of a sequence and of a cycle -/

/-- A property that does not look at RUN holds of the next state if it holds of the state the sequence leaves. -/
theorem Res.next_of_state {P : State → Prop} (hraise : ∀ c u, P u → P (u.raise c)) {r : Res} {t : State}
    (h : r.outcome = .next t) (hr : P r.state) : P t := by
  rcases r.outcome_cases with ⟨hout, -⟩ | ⟨c, -, hout⟩
  · cases hout.symm.trans h
    exact hr
  · cases hout.symm.trans h
    exact hraise c _ hr

/-- A property that does not look at RUN holds after a step if it holds before it and the timer check, interrupt entry and
the instruction fetched keep it. -/
theorem step_keeps {P : State → Prop} (hraise : ∀ c u, P u → P (u.raise c)) {s t : State} (h : step s = .next t)
    (h0 : P s) (htimer : P (afterTimer s)) (hentry : ∀ n, P (interruptEntry n (afterTimer s)).state)
    (hexec : ∀ i, fetchInstr s = .ok i → exec i (afterTimer s) = .next t → P t) : P t := by
  rcases step_cases h with ⟨-, rfl⟩ | ⟨-, u, rfl, ⟨n, -, hn⟩ | ⟨-, ⟨i, hf, hi⟩ | ⟨c, -, rfl⟩⟩⟩
  · exact h0
  · exact Res.next_of_state hraise hn (hentry n)
  · exact hexec i ((fetchInstr_afterTimer s).symm.trans hf) hi
  · exact hraise c _ htimer

/-- RUN after interrupt entry: unchanged, or the record of a push or a vector read without a cell, at an unchanged PC
(60_exceptions.md R197, R212, R213). -/
theorem interruptEntry_run {n : Fin 8} {s t : State} (h : (interruptEntry n s).outcome = .next t) :
    t.run = s.run ∨ t.run = .faulted ⟨.memRange 0xFF#8, s.pc⟩ ∧ t.pc = s.pc := by
  rcases (interruptEntry n s).outcome_cases with ⟨hout, -⟩ | ⟨c, hraised, hout⟩
  · cases hout.symm.trans h
    exact .inl (interruptEntry_same n s).2.2.1
  · cases hout.symm.trans h
    obtain ⟨hpc, rfl⟩ := interruptEntry_raised hraised
    exact .inr ⟨by rw [State.raise_run, hpc], hpc⟩

/-! ### The instructions of three rows -/

theorem Instr.eq_hlt_of_op {i : Instr} (h : i.op = .hlt) : i = .hlt := by
  rw [← i.build_op_operands, h]
  rfl

theorem Instr.eq_iret_of_op {i : Instr} (h : i.op = .iret) : i = .iret := by
  rw [← i.build_op_operands, h]
  rfl

theorem Instr.eq_cmp_of_op {i : Instr} (h : i.op = .cmp) : ∃ a b, i = .cmp a b := by
  rw [← i.build_op_operands, h]
  exact ⟨_, _, rfl⟩

/-! ### The output of PRN and PRA -/

/-- An instruction that prints its register, PRN or PRA: with an operand of 8 or more there is no output (40_cycle.md
R108). -/
theorem withReg_emit_out {a n : Byte} {k : OutKind} {s t : State}
    (h : (withReg a s fun ra => .ok ((s.emit k (s.reg ra)).advance n)).outcome = .next t) :
    t.out = s.out ∨ ∃ ra, regOfByte a = some ra ∧ t.out = s.out ++ [⟨k, s.reg ra⟩] := by
  rcases withReg_cases a s fun ra => .ok ((s.emit k (s.reg ra)).advance n) with ⟨-, e⟩ | ⟨ra, ha, e⟩
  · rw [e] at h
    cases h
    exact .inl rfl
  · rw [e] at h
    cases h
    exact .inr ⟨ra, ha, rfl⟩

/-- From `s` to `t` the output grew by what the PRN or PRA that `s` fetches prints (10_state.md R44). -/
def PrintsFetched (s t : State) : Prop :=
  ∃ a ra, regOfByte a = some ra ∧
    (fetchInstr s = .ok (.prn a) ∧ t.out = s.out ++ [⟨.prn, (afterTimer s).reg ra⟩] ∨
      fetchInstr s = .ok (.pra a) ∧ t.out = s.out ++ [⟨.pra, (afterTimer s).reg ra⟩])

/-! ### The obligations on a step -/

/-- Settles O57, by how the cycle came to fault: in interrupt entry, in its instruction or in the fetch. -/
theorem faultLeavesPcAndRecordsIt : Obligations.FaultLeavesPcAndRecordsIt := by
  intro s t r h hrun
  rcases step_cases h with ⟨hhalted, rfl⟩ | ⟨hrunning, u, rfl, ⟨n, hn, hentry⟩ | ⟨hnone, ⟨i, -, hexec⟩ | ⟨c, hf, rfl⟩⟩⟩
  · cases hhalted.symm.trans hrun
  · rcases interruptEntry_run hentry with hsame | ⟨hfault, hpc⟩
    · cases (hsame.trans hrunning).symm.trans hrun
    · cases hfault.symm.trans hrun
      exact ⟨hpc, rfl, rfl, fun _ => rfl⟩
  · rcases (exec_cases hexec).2 with hok | ⟨c, hraises, hfault, hpc⟩
    · rw [hok.run, afterTimer_run, hrunning] at hrun
      split at hrun <;> cases hrun
    · cases hfault.symm.trans hrun
      exact ⟨hpc, rfl, hraises.legal, fun hsome => absurd hnone hsome⟩
  · cases hrun
    exact ⟨rfl, rfl, fetchInstr_error_legal hf, fun hsome => absurd hnone hsome⟩

/-- Settles O50: the canonical form is kept by entry and by every instruction, and the record is right by O57. -/
theorem stepKeepsTheInvariant : Obligations.StepKeepsTheInvariant := by
  intro s t hs h
  refine ⟨step_keeps (P := fun u => Memory.wf u.mem = true) (fun _ _ hu => hu) h hs.1 hs.1
    (fun n => interruptEntry_wf n _ hs.1) fun i _ hexec => (exec_cases hexec).1.wf hs.1, ?_⟩
  unfold State.recordOk
  split
  · next r hr =>
    obtain ⟨hpc, hrpc, hlegal, -⟩ := faultLeavesPcAndRecordsIt s t r h hr
    exact ⟨hlegal, hrpc.trans hpc.symm⟩
  · trivial

/-- Settles O58: a recorded cause is legal, and AluOp is not. -/
theorem aluOpIsNeverRecorded : Obligations.AluOpIsNeverRecorded := by
  refine ⟨rfl, rfl, fun s t r h hrun halu => ?_⟩
  have hlegal := (faultLeavesPcAndRecordsIt s t r h hrun).2.2.1
  rw [halu] at hlegal
  exact hlegal

/-- Settles O54: interrupt entry and the fetch leave RUN or record a fault, and so does every instruction but HLT. -/
theorem haltedOnlyByHlt : Obligations.HaltedOnlyByHlt := by
  intro s t hrunning h hhalted
  rcases step_cases h with ⟨hs, -⟩ | ⟨-, u, rfl, ⟨n, -, hentry⟩ | ⟨hnone, ⟨i, hf, hexec⟩ | ⟨c, -, rfl⟩⟩⟩
  · cases hrunning.symm.trans hs
  · rcases interruptEntry_run hentry with hsame | ⟨hfault, -⟩
    · cases (hsame.trans hrunning).symm.trans hhalted
    · cases hfault.symm.trans hhalted
  · refine ⟨?_, hnone⟩
    by_cases hop : i.op = .hlt
    · rw [← fetchInstr_afterTimer, hf, Instr.eq_hlt_of_op hop]
    · rcases exec_run hexec hop with hrun | ⟨c, hrun, -⟩
      · cases (hrun.trans hrunning).symm.trans hhalted
      · cases hrun.symm.trans hhalted
  · cases hhalted

/-- Settles O55: nothing but the instruction fetched writes the output, and of the instructions PRN and PRA alone. -/
theorem outputGrowsOnlyByPrnAndPra : Obligations.OutputGrowsOnlyByPrnAndPra := by
  intro s t h
  refine step_keeps (P := fun u => u.out = s.out ∨ PrintsFetched s u) (fun _ _ hu => hu) h (.inl rfl) (.inl rfl)
    (fun n => .inl (interruptEntry_same n _).2.2.2.1) fun i hf hexec => ?_
  cases i with
  | prn a => exact (withReg_emit_out (k := .prn) hexec).imp_right fun ⟨ra, ha, hout⟩ => ⟨a, ra, ha, .inl ⟨hf, hout⟩⟩
  | pra a => exact (withReg_emit_out (k := .pra) hexec).imp_right fun ⟨ra, ha, hout⟩ => ⟨a, ra, ha, .inr ⟨hf, hout⟩⟩
  | _ => exact .inl ((exec_cases hexec).1.out nofun nofun)

/-- Settles O56: nothing but the instruction fetched writes FL, and of the instructions CMP and IRET alone. -/
theorem flagsChangeOnlyByCmpAndIret : Obligations.FlagsChangeOnlyByCmpAndIret := by
  intro s t h
  refine step_keeps (P := fun u => u.fl ≠ s.fl → (∃ a b, fetchInstr s = .ok (.cmp a b)) ∨ fetchInstr s = .ok .iret)
    (fun _ _ hu => hu) h (absurd rfl) (absurd rfl) (fun n => absurd (interruptEntry_same n _).2.1)
    fun i hf hexec hne => ?_
  by_cases hcmp : i.op = .cmp
  · obtain ⟨a, b, rfl⟩ := Instr.eq_cmp_of_op hcmp
    exact .inl ⟨a, b, hf⟩
  · by_cases hiret : i.op = .iret
    · exact .inr (Instr.eq_iret_of_op hiret ▸ hf)
    · exact absurd ((exec_cases hexec).1.fl hcmp hiret) hne

/-- Settles O19: with IE clear no line is chosen, entry ends with IE clear, and of the instructions IRET alone writes
IE. -/
theorem onlyIretEnablesInterrupts : Obligations.OnlyIretEnablesInterrupts := by
  refine ⟨fun s hrun hie => ?_, fun n s t h => ?_, fun s t hie h => ?_⟩
  · rw [step_running hrun, cycle_instruction (pendingLine_of_ie_false (s := afterTimer s) hie)]
  · exact Res.next_of_state (P := fun u => u.ie = false) (fun _ _ hu => hu) h (interruptEntry_same n s).1
  · refine step_keeps (P := fun u => u.ie = true → fetchInstr s = .ok .iret) (fun _ _ hu => hu) h
      (fun hset => nomatch hie.symm.trans hset) (fun hset => nomatch hie.symm.trans hset)
      (fun n hset => nomatch (interruptEntry_same n _).1.symm.trans hset) fun i hf hexec hset => ?_
    by_cases hiret : i.op = .iret
    · exact Instr.eq_iret_of_op hiret ▸ hf
    · cases (((exec_cases hexec).1.ie hiret).trans hie).symm.trans hset

/-! ### The start of a run -/

theorem launch_of_fits {image : List Byte} (h : image.length ≤ 255) :
    launch image = some { State.reset with mem := imageMemory image } := if_pos h

/-- The image lies in cells that exist, with every other cell as reset left it (20_memory.md R69). -/
theorem imageMemory_read {image : List Byte} (h : image.length ≤ 255) :
    (∀ (k : Nat) (hk : k < image.length), Memory.read (imageMemory image) k = image[k]) ∧
      ∀ k : Nat, image.length ≤ k → Memory.read (imageMemory image) k = 0 := by
  refine ⟨fun k hk => ?_, fun k hk => Memory.read_place_other image 0 [] k (.inr (by omega))⟩
  have hcell : addrExists (0 + k) = true := decide_eq_true (by rw [Config.memSize]; omega)
  simpa [imageMemory] using Memory.read_place image 0 [] k hk hcell

/-- Settles O51: memory is empty after reset, and placing bytes keeps the canonical form. -/
theorem launchedStatesHaveTheInvariant : Obligations.LaunchedStatesHaveTheInvariant := by
  refine ⟨⟨rfl, trivial⟩, fun image s h => ?_⟩
  rw [launch] at h
  split at h
  · cases h
    exact ⟨Memory.place_wf image 0 [] rfl, trivial⟩
  · cases h

/-- Settles O52, field by field. -/
theorem resetValues : Obligations.ResetValues := by
  refine ⟨rfl, rfl, fun _ => rfl, fun r hr => ?_, rfl, rfl, rfl, rfl⟩
  cases r with
  | r7 => exact absurd rfl hr
  | _ => rfl

/-- Settles O53, by whether the image fits. -/
theorem launchPlacesTheImage : Obligations.LaunchPlacesTheImage :=
  fun _ => ⟨fun h => ⟨_, launch_of_fits h, rfl, imageMemory_read h⟩, fun h => if_neg (Nat.not_le.2 h)⟩

end Sys2Proof.Machine
end
